-- ==== Sys2Proof/Word.lean ====
section
/-! DEFINITION. The bit-vector types of the AES Block Engine: a byte (R130), a 32-bit word (R8 `WORD`,
`REG_WIDTH`) and a byte offset within the 64-byte register window (R70). -/

namespace Sys2Proof

/-- A byte: an element of GF(2^8) (R130), and one byte of a key or of a block. -/
abbrev Byte := BitVec 8

/-- A 32-bit word: a register of the window, a round-key word, a column of the cipher state (R8, R138, R139). -/
abbrev Word := BitVec 32

/-- A byte offset within the register window, 0x00 to 0x3F (R70: `WINDOW_BYTES` = 64). -/
abbrev Offset := BitVec 6

end Sys2Proof
end

