-- ==== Sys2Proof/Syntax.lean ====
section
/-! DEFINITION. The commands of the AES Block Engine: one constructor per row of spec/opcode_table.json (R3, R101). -/

namespace Sys2Proof

/-- A command, with the byte counts its word carries (R100). The counts are numbers, not bit fields: R102 and R103
read each field as "an unsigned byte count from 0 to 255". -/
inductive Instr where
  /-- `INIT` (R170): load a key. `klen` is the declared key length, `dlen` the number of key bytes supplied in `DIN`. -/
  | init (klen dlen : Nat)
  /-- `ENC` (R210): encrypt one block of `dlen` bytes. -/
  | enc (dlen : Nat)
  /-- `DEC` (R250): decrypt one block of `dlen` bytes. -/
  | dec (dlen : Nat)
deriving DecidableEq, Repr

end Sys2Proof
end

