-- ==== Sys2Proof/WellFormed.lean ====
section
/-! DEFINITION. Which commands a command word can express: every byte count fits its 8-bit field (R100, R102, R103). -/

namespace Sys2Proof

/-- A byte count that an 8-bit field can carry (R102, R103: "from 0 to 255"). -/
abbrev fitsField (n : Nat) : Prop := n ≤ 255

/-- A command is well formed when each of its counts fits its field. A count need not be a legal length: a wrong
length "is an execution error, not a decode error" (R107). -/
def Instr.wellFormed : Instr → Bool
  | .init klen dlen => decide (fitsField klen) && decide (fitsField dlen)
  | .enc dlen => decide (fitsField dlen)
  | .dec dlen => decide (fitsField dlen)

end Sys2Proof
end

