-- ==== Sys2Proof/Decode.lean ====
section
/-! DEFINITION. The command word (R100): its fields, the decoder (R105), total on all 2^32 words and naming why a word is
illegal (R106), and after it the encoder, written from the same field table. -/

namespace Sys2Proof

/-- `OP = CMD[3:0]` (R100). -/
def opField (v : Word) : BitVec 4 := v.extractLsb' 0 4

/-- `RSV0 = CMD[7:4]` (R100). -/
def rsv0Field (v : Word) : BitVec 4 := v.extractLsb' 4 4

/-- `KLEN = CMD[15:8]` (R100). -/
def klenField (v : Word) : BitVec 8 := v.extractLsb' 8 8

/-- `DLEN = CMD[23:16]` (R100). -/
def dlenField (v : Word) : BitVec 8 := v.extractLsb' 16 8

/-- `RSV1 = CMD[31:24]` (R100). -/
def rsv1Field (v : Word) : BitVec 8 := v.extractLsb' 24 8

/-- Why a word is illegal (R106). -/
inductive IllegalReason where
  /-- `RSV0` or `RSV1` is nonzero (R104). -/
  | reservedBits
  /-- `OP` is 0x0 or in 0x4-0xF (R101). -/
  | reservedOp
  /-- `OP` is ENC or DEC and `KLEN` is nonzero (R102). -/
  | lengthOnBlockCommand
deriving DecidableEq, Repr

/-- What a word decodes to: a command, or `Illegal`, which "is a decode result, not a trap" (R105). -/
inductive Decoded where
  | command (i : Instr)
  | illegal (why : IllegalReason)
deriving DecidableEq, Repr

/-- `decode` (R105), in the order of its tests. -/
def decode (v : Word) : Decoded :=
  let klen := klenField v
  let dlen := (dlenField v).toNat
  if rsv0Field v ≠ 0 ∨ rsv1Field v ≠ 0 then .illegal .reservedBits
  else if opField v = 0x1 then .command (.init klen.toNat dlen)
  else if opField v = 0x2 then
    if klen = 0 then .command (.enc dlen) else .illegal .lengthOnBlockCommand
  else if opField v = 0x3 then
    if klen = 0 then .command (.dec dlen) else .illegal .lengthOnBlockCommand
  else .illegal .reservedOp

/-- A command word put together from its fields, `RSV1 ++ DLEN ++ KLEN ++ RSV0 ++ OP` with both reserved fields 0
(R100, R104). -/
def commandWord (op : BitVec 4) (klen dlen : Nat) : Word :=
  (0 : BitVec 8) ++ BitVec.ofNat 8 dlen ++ BitVec.ofNat 8 klen ++ (0 : BitVec 4) ++ op

/-- The word of a well-formed command (R100, R101). -/
def encode : Instr → Word
  | .init klen dlen => commandWord 0x1 klen dlen
  | .enc dlen => commandWord 0x2 0 dlen
  | .dec dlen => commandWord 0x3 0 dlen

/-- The word that `nbits` bits of an opcode-table row stand for: the bits above `nbits` are 0, and a command has 32
bits ("Every command is exactly one word", R100). -/
def tableWord (nbits w : Nat) : Word := BitVec.ofNat 32 (w % 2 ^ nbits)

/-- The command the decoder reads from a row's word, none where it answers `Illegal`. -/
def decodeTableWord (nbits w : Nat) : Option Instr :=
  match decode (tableWord nbits w) with
  | .command i => some i
  | .illegal _ => none

end Sys2Proof
end

