-- ==== Sys2Proof/Config.lean ====
section
/-! DEFINITION. What this hardware leaves to the platform or does not fix at all, as constants WITHOUT a body, so that
no proof can lean on a value of theirs: the window's place (R70, R8 `BASE`), the round-key words that no rule
gives a value (R35, R48), the error line of an access lost to reset (R340) and the block that a schedule of no legal round
count gives (R36). The latencies `LAT_*` of R8 are not
here: they are the places of the engine's turns in the machine's input (see `Sys2Proof.Machine.Input`). -/

namespace Sys2Proof.Config

/-- Which 64-byte unit of the platform's address space holds the window. Free: R8 and D19 leave `BASE` open. -/
opaque baseUnit : Nat

/-- `BASE` (R70): the platform address of the window, "a multiple of 64". -/
def base : Nat := 64 * baseUnit

/-- The platform address of the register at a window offset (R71: "as byte offsets from `BASE`"). -/
def platformAddress (off : Offset) : Nat := base + off.toNat

/-- The window offset that a platform address selects, none outside the window's 64 bytes (R70). -/
def windowOffset (addr : Nat) : Option Offset :=
  if base ≤ addr ∧ addr < base + 64 then some (BitVec.ofNat 6 (addr - base)) else none

/-- The value of `EK[i]` where R35 and R48 call it unspecified, the `n`-th time that happens. -/
opaque freeEk : Nat → Nat → Word

/-- The value of `DK[i]` where R35 and R48 call it unspecified, the `n`-th time that happens. -/
opaque freeDk : Nat → Nat → Word

/-- Whether the bus signals an error on an access that is lost because reset is asserted (R340 does not say), the
`n`-th time a free value is taken. -/
opaque freeLostError : Nat → Bool

/-- What ENC and DEC write to `DOUT` where `KEYV` is 1 and `NR` is no legal round count, the `n`-th time a free value is
taken. R36 and R37 exclude such a state, so no rule states the result there. -/
opaque freeDout : Nat → Vector Word 4

end Sys2Proof.Config
end

