-- ==== Sys2Proof/Machine/State.lean ====
section
/-! DEFINITION. The state of the machine: the registers of R30, the level of the reset input (R340), and, beside the
block itself, what reaches it and what it answers (R7, R81): the input still to come, in arrival order, and the
bus responses given so far. All plain data. -/

namespace Sys2Proof.Machine

/-- The result codes of R300. The reserved codes 0x6-0xF are "never written" (R45), so they have no constructor. -/
inductive ErrCode where
  | ok
  | invalidKeySize
  | invalidKeyLength
  | invalidBlockSize
  | illegalCommand
  | keyNotLoaded
deriving DecidableEq, Repr

/-- The width of a bus access. Only `w32` is legal (R72); R73 names the others. -/
inductive Width where
  | w8
  | w16
  | w32
  | w64
deriving DecidableEq, Repr

/-- One host access, at a window offset (R12, R72). The data of a write of another width than 32 bits never matters
(R73: "changes no state"), so a write carries one word whatever its width. -/
inductive Access where
  | read (width : Width) (off : Offset)
  | write (width : Width) (off : Offset) (value : Word)
deriving DecidableEq, Repr

/-- What can happen next at the block (R7, R81, R340). Where the engine's turns stand among the host's accesses is
the latency of each command: `LAT_INIT`, `LAT_ENC`, `LAT_DEC` and `LAT_ERR` of R8 and R348 are the number of accesses
between a command's acceptance and the next `engineTurn`, any number including 0. -/
inductive Input where
  /-- The interconnect delivers one access of some host (R81; the block "does not identify the master", R85). -/
  | access (a : Access)
  /-- The engine is given its turn: it takes its `Complete` step if that is enabled (R7). -/
  | engineTurn
  /-- The platform drives the block's reset input (R340). -/
  | resetLine (asserted : Bool)
deriving DecidableEq, Repr

/-- The bus response to one access. `error` is the error response of R73. -/
inductive Response where
  | readData (value : Word) (error : Bool)
  | writeDone (error : Bool)
deriving DecidableEq, Repr

/-- Every piece of state the spec gives the machine (R30, R340), then the model's own fields: the environment and the
free-value counter. -/
structure State where
  /-- `EK[0..59]`, the encryption round keys (R33). -/
  ek : Vector Word 60
  /-- `DK[0..59]`, the decryption round keys (R34). -/
  dk : Vector Word 60
  /-- `NR`, the round count of the loaded schedule: 0, 10, 12 or 14 (R36). -/
  nr : BitVec 4
  /-- `KEYV`, a schedule is loaded (R37). -/
  keyv : Bool
  /-- `DIN[0..7]`, the data-input buffer (R39). -/
  din : Vector Word 8
  /-- `DOUT[0..3]`, the data-output buffer (R40). -/
  dout : Vector Word 4
  /-- `CMD`, the last accepted command word (R41). -/
  cmd : Word
  /-- `BUSY`, a command is pending (R43). -/
  busy : Bool
  /-- `DONE`, the last accepted command has completed (R44). -/
  done : Bool
  /-- `ERR`, the result of the last completed command (R45); its 4 bits are `ErrCode.code`. -/
  err : ErrCode
  /-- The reset input is asserted (R340). -/
  inReset : Bool
  /-- The environment: what will happen at the block, in order (R7, R81). -/
  inputs : List Input
  /-- The environment: the bus responses so far, the latest first (R72, R73). -/
  responses : List Response
  /-- The model's own counter: how often a free value of `Config` has been taken. -/
  freeCtr : Nat
deriving DecidableEq, Repr

/-- Why the machine stops with a fault: there is no such reason. "No error is fatal" (R309): a command that fails reports
a result code (R307), and an access error is answered on the bus (R73). -/
inductive Fault where
deriving DecidableEq, Repr

/-- Why an instruction is refused. -/
inductive Refusal where
  /-- Raised by an arm of `exec` whose instruction has no meaning yet: no arm at present. Safe. -/
  | notModelled (mnemonic : String)
deriving DecidableEq, Repr

/-- The machine right after reset (R48, R340). `EK` and `DK`, which R48 leaves "unspecified (any value; never read
while `KEYV = 0`)", are zero here (DESIGN CHOICE, notes/assumptions/1.md, unsafe); nothing waits in the environment. -/
def State.reset : State where
  ek := Vector.replicate 60 0
  dk := Vector.replicate 60 0
  nr := 0
  keyv := false
  din := Vector.replicate 8 0
  dout := Vector.replicate 4 0
  cmd := 0
  busy := false
  done := false
  err := .ok
  inReset := false
  inputs := []
  responses := []
  freeCtr := 0

end Sys2Proof.Machine
end

