-- ==== Sys2Proof/Machine/Flags.lean ====
section
/-! DEFINITION. The flags: the numeric result codes (R300), the `STATUS` word (R42) and the legal round counts (R36). -/

namespace Sys2Proof.Machine

/-- The 4-bit value of a result code (R300). -/
def ErrCode.code : ErrCode → BitVec 4
  | .ok => 0x0
  | .invalidKeySize => 0x1
  | .invalidKeyLength => 0x2
  | .invalidBlockSize => 0x3
  | .illegalCommand => 0x4
  | .keyNotLoaded => 0x5

/-- `STATUS = zext_32(NR ++ ERR ++ 0b0 ++ KEYV ++ DONE ++ BUSY)` (R42). -/
def State.status (s : State) : Word :=
  (s.nr ++ s.err.code ++ (0 : BitVec 1) ++ BitVec.ofBool s.keyv ++ BitVec.ofBool s.done
    ++ BitVec.ofBool s.busy).setWidth 32

/-- The round counts of a loaded schedule (R36, R37). -/
abbrev legalRounds (nr : BitVec 4) : Prop := nr = 10 ∨ nr = 12 ∨ nr = 14

end Sys2Proof.Machine
end

