-- ==== Sys2Proof/Machine/Operands.lean ====
section
/-! DEFINITION. How operands are laid out: bytes in words (R76, R138), the 4x4 cipher state (R11, R139), the key and the
block read from `DIN` (R39, R76), and round keys in `EK` and `DK` (R33, R34). -/

namespace Sys2Proof.Machine

/-- `word(b0, b1, b2, b3)` (R138): the first byte most significant. -/
def word (b0 b1 b2 b3 : Byte) : Word := b0 ++ b1 ++ b2 ++ b3

/-- `byte_k(w) = w[31 - 8k : 24 - 8k]` (R138). -/
def byteOf (k : Fin 4) (w : Word) : Byte := w.extractLsb' (24 - 8 * k.val) 8

/-- The AES state (R11, R139): byte `r + 4c` of the vector is `s[r,c]`, so the vector is also the 16-byte block. -/
abbrev Block := Vector Byte 16

/-- `s[r,c]` (R139). -/
def Block.get (s : Block) (r c : Fin 4) : Byte := s[r.val + 4 * c.val]

/-- The state whose byte in row `r` and column `c` is `f r c` (R139). -/
@[irreducible] def Block.of (f : Fin 4 → Fin 4 → Byte) : Block :=
  Vector.ofFn fun i : Fin 16 => f ⟨i.val % 4, by omega⟩ ⟨i.val / 4, by omega⟩

/-- Column word `c` of a state (R139). -/
def Block.column (s : Block) (c : Fin 4) : Word := word (s.get 0 c) (s.get 1 c) (s.get 2 c) (s.get 3 c)

/-- The four column words, as ENC and DEC write them to `DOUT` (R139, R210, R250). -/
def Block.words (s : Block) : Vector Word 4 := Vector.ofFn s.column

/-- `din_byte(j)`, `0 <= j < 32` (R76): byte `j mod 4` of `DIN[j div 4]`. -/
def dinByte (din : Vector Word 8) (j : Fin 32) : Byte :=
  byteOf ⟨j.val % 4, by omega⟩ din[j.val / 4]

/-- The input block of ENC and DEC (R210, R250): `in[j] = din_byte(j)`, so `s[r,c] = din_byte(r + 4c)` (R139). -/
def inputBlock (din : Vector Word 8) : Block :=
  .of fun r c => dinByte din ⟨r.val + 4 * c.val, by omega⟩

/-- The key bytes of INIT (R170): `key[j] = din_byte(j)` for `0 <= j < klen`. -/
def keyBytes (din : Vector Word 8) (klen : Nat) : List Byte :=
  ((List.finRange 32).take klen).map (dinByte din)

/-- The key as words (R138): word `i` is `word(key[4i], .., key[4i+3])`. -/
def keyWords (key : List Byte) (nk : Nat) : List Word :=
  (List.range nk).map fun i =>
    word (key.getD (4 * i) 0) (key.getD (4 * i + 1) 0) (key.getD (4 * i + 2) 0) (key.getD (4 * i + 3) 0)

/-- Word `i` of a round-key file of 60 words (R33, R34). Every use of it has `i < 60`: the largest schedule, of 14
rounds, fills the file (R175). -/
def fileWord (file : Vector Word 60) (i : Nat) : Word := file.toList.getD i 0

/-- Round key `r` of a file: the words `4r` to `4r+3` (R33, R34). -/
def roundKey (file : Vector Word 60) (r : Nat) : Vector Word 4 :=
  Vector.ofFn fun c : Fin 4 => fileWord file (4 * r + c.val)

end Sys2Proof.Machine
end

