-- ==== Sys2Proof/Machine/Ops.lean ====
section
/-! DEFINITION. The named operations on the state: raising an error (R307), ending a command (R113), accepting one (R78),
the writes of INIT, ENC and DEC (R170, R210, R250), reset (R48, R340), and the register window (R71-R79). -/

namespace Sys2Proof.Machine

/-- `raise E` (R307): the whole effect of a command that fails. This block's exceptions are results, not traps: no
saved context, no vector, no change of mode, so nothing returns from one (R312). -/
def State.raise (s : State) (e : ErrCode) : State := { s with err := e, done := true, busy := false }

/-- The end of a command that succeeds: `ERR <- 0; DONE <- 1; BUSY <- 0` (R113). -/
def State.finish (s : State) : State := { s with err := .ok, done := true, busy := false }

/-- Acceptance of a command word (R78). -/
def State.accept (s : State) (v : Word) : State := { s with cmd := v, busy := true, done := false, err := .ok }

/-- A round-key file of 60 words: the words of a list, then words that the spec leaves unspecified. After a successful
INIT the list is the schedule (R35); after a reset there is none (R48). -/
@[irreducible] def fileOf (words : List Word) (free : Nat → Word) : Vector Word 60 :=
  Vector.ofFn fun i : Fin 60 => if i.val < words.length then words.getD i.val 0 else free i.val

/-- The writes of a successful INIT: `EK`, `DK`, `NR` and `KEYV` (R170, R178). -/
def State.loadSchedule (s : State) (w d : List Word) (nr : Nat) : State :=
  { s with
    ek := fileOf w (Config.freeEk s.freeCtr)
    dk := fileOf d (Config.freeDk s.freeCtr)
    nr := BitVec.ofNat 4 nr
    keyv := true
    freeCtr := s.freeCtr + 1 }

/-- `DOUT[c] <- word(out[4c], .., out[4c+3])` for `c = 0 to 3` (R210, R250). -/
def State.writeDout (s : State) (out : Block) : State := { s with dout := out.words }

/-- `DOUT` takes a value that no rule states: ENC and DEC under a round count that R36 excludes
(notes/assumptions/9.md). -/
def State.writeFreeDout (s : State) : State :=
  { s with dout := Config.freeDout s.freeCtr, freeCtr := s.freeCtr + 1 }

/-- The registers at reset (R48, R340). `EK` and `DK` are unspecified: free values. -/
def State.resetRegisters (s : State) : State :=
  { s with
    ek := fileOf [] (Config.freeEk s.freeCtr)
    dk := fileOf [] (Config.freeDk s.freeCtr)
    nr := 0
    keyv := false
    din := Vector.replicate 8 0
    dout := Vector.replicate 4 0
    cmd := 0
    busy := false
    done := false
    err := .ok
    freeCtr := s.freeCtr + 1 }

/-- The reset input changes to a level (R340): "While asserted, and when released, it puts every piece of state to the
values" of R48. A release with reset not asserted changes nothing. -/
def State.driveReset (s : State) (asserted : Bool) : State :=
  if asserted || s.inReset then { s.resetRegisters with inReset := asserted } else s

/-- A register of the window (R71). -/
inductive Reg where
  | cmd
  | status
  /-- Offsets 0x08 (`k = 0`) and 0x0C (`k = 1`): read as zero, writes ignored (R74). -/
  | reserved (k : Fin 2)
  | din (k : Fin 8)
  | dout (k : Fin 4)
deriving DecidableEq, Repr

/-- The offset of a register (R71). -/
def Reg.offset : Reg → Offset
  | .cmd => 0x00
  | .status => 0x04
  | .reserved k => BitVec.ofNat 6 (0x08 + 4 * k.val)
  | .din k => BitVec.ofNat 6 (0x10 + 4 * k.val)
  | .dout k => BitVec.ofNat 6 (0x30 + 4 * k.val)

/-- The register at an offset, none at one that is not a multiple of 4 (R71, R73). -/
def regAt (off : Offset) : Option Reg :=
  let i := off.toNat / 4
  if off.toNat % 4 ≠ 0 then none
  else if i = 0 then some .cmd
  else if i = 1 then some .status
  else if i < 4 then some (.reserved (Fin.ofNat 2 (i - 2)))
  else if i < 12 then some (.din (Fin.ofNat 8 (i - 4)))
  else some (.dout (Fin.ofNat 4 (i - 12)))

/-- The register that an access of a width at an offset selects, none for an access error (R72, R73). -/
def target (width : Width) (off : Offset) : Option Reg :=
  if width = .w32 then regAt off else none

/-- A read of a register (R71, R72, R74, R79). It has no side effect (R78). -/
def State.readReg (s : State) : Reg → Word
  | .cmd => s.cmd
  | .status => s.status
  | .reserved _ => 0
  | .din k => s.din[k]
  | .dout k => s.dout[k]

/-- A write of a register: acceptance for `CMD` (R78), storing for `DIN` (R72), dropped while busy (R79), ignored
elsewhere (R74, R75). -/
def State.writeReg (s : State) (v : Word) : Reg → State
  | .cmd => if s.busy then s else s.accept v
  | .din k => if s.busy then s else { s with din := s.din.set k v }
  | .status => s
  | .reserved _ => s
  | .dout _ => s

/-- The block answers an access. -/
def State.respond (s : State) (r : Response) : State := { s with responses := r :: s.responses }

/-- The answer to an access that is lost because reset is asserted: "host accesses have no effect and reads return
0x00000000" (R340). Whether the bus signals an error is not said: a free value. -/
def State.loseAccess (s : State) (a : Access) : State :=
  let error := Config.freeLostError s.freeCtr
  let s' := { s with freeCtr := s.freeCtr + 1 }
  match a with
  | .read _ _ => s'.respond (.readData 0 error)
  | .write _ _ _ => s'.respond (.writeDone error)

/-- One host access, complete with its bus response (R72-R79, R340). An access error changes nothing, a read that is
one returns 0 (R73). -/
def State.performAccess (s : State) (a : Access) : State :=
  if s.inReset then s.loseAccess a
  else
    match a with
    | .read width off =>
      match target width off with
      | none => s.respond (.readData 0 true)
      | some r => s.respond (.readData (s.readReg r) false)
    | .write width off v =>
      match target width off with
      | none => s.respond (.writeDone true)
      | some r => (s.writeReg v r).respond (.writeDone false)

end Sys2Proof.Machine
end

