-- ==== Sys2Proof/Machine/Encrypt.lean ====
section
/-! DEFINITION. ENC (R210): the round transforms of the forward cipher (R211-R214), the cipher (R215) and the command. -/

namespace Sys2Proof.Machine

/-- `SubBytes` (R211). -/
def subBytes (s : Block) : Block := .of fun r c => sbox (s.get r c)

/-- `ShiftRows` (R212): row `r` rotated left by `r`. The sum is taken in `Fin 4`, that is mod 4. -/
def shiftRows (s : Block) : Block := .of fun r c => s.get r (c + r)

/-- Row `r` of a 4x4 matrix times a column, over GF(2^8) (R213, R253). -/
def mulRow (m : Vector (Vector Byte 4) 4) (a : Fin 4 → Byte) (r : Fin 4) : Byte :=
  gmul m[r][0] (a 0) ^^^ gmul m[r][1] (a 1) ^^^ gmul m[r][2] (a 2) ^^^ gmul m[r][3] (a 3)

/-- The fixed MDS matrix (R213). -/
def mixMatrix : Vector (Vector Byte 4) 4 :=
  #v[#v[0x02, 0x03, 0x01, 0x01],
     #v[0x01, 0x02, 0x03, 0x01],
     #v[0x01, 0x01, 0x02, 0x03],
     #v[0x03, 0x01, 0x01, 0x02]]

/-- `MixColumns` (R213). -/
def mixColumns (s : Block) : Block := .of fun r c => mulRow mixMatrix (fun k => s.get k c) r

/-- `MixColumnsWord` (R213): the same map on one column word. -/
def mixColumnsWord (w : Word) : Word :=
  let m := mulRow mixMatrix (fun k => byteOf k w)
  word (m 0) (m 1) (m 2) (m 3)

/-- `AddRoundKey` (R214). It is shared with DEC (R254). -/
def addRoundKey (s : Block) (rk : Vector Word 4) : Block := .of fun r c => s.get r c ^^^ byteOf r rk[c]

/-- One of the full rounds of R215. -/
def encRound (ek : Vector Word 60) (s : Block) (round : Nat) : Block :=
  addRoundKey (mixColumns (shiftRows (subBytes s))) (roundKey ek round)

/-- `Cipher` (R215). -/
def cipher (input : Block) (ek : Vector Word 60) (nr : Nat) : Block :=
  let s := addRoundKey input (roundKey ek 0)
  let s := (List.range' 1 (nr - 1)).foldl (encRound ek) s
  addRoundKey (shiftRows (subBytes s)) (roundKey ek nr)

/-- `ENC` (R210), run at completion (R113). -/
def execEnc (dlen : Nat) (s : State) : Host.Outcome State Fault Refusal :=
  if dlen ≠ 16 then .next (s.raise .invalidBlockSize)
  else if s.keyv = false then .next (s.raise .keyNotLoaded)
  else if ¬ legalRounds s.nr then .next s.writeFreeDout.finish
  else .next (s.writeDout (cipher (inputBlock s.din) s.ek s.nr.toNat)).finish

end Sys2Proof.Machine
end

