-- ==== Sys2Proof/Machine/Decrypt.lean ====
section
/-! DEFINITION. DEC (R250): the inverse round transforms (R251-R253), the equivalent inverse cipher (R254), the plain inverse
cipher it equals (R256) and the command. -/

namespace Sys2Proof.Machine

/-- `InvSubBytes` (R251). -/
def invSubBytes (s : Block) : Block := .of fun r c => invSbox (s.get r c)

/-- `InvShiftRows` (R252): row `r` rotated right by `r`. The difference is taken in `Fin 4`, that is mod 4. -/
def invShiftRows (s : Block) : Block := .of fun r c => s.get r (c - r)

/-- The inverse of the MixColumns matrix (R253). -/
def invMixMatrix : Vector (Vector Byte 4) 4 :=
  #v[#v[0x0e, 0x0b, 0x0d, 0x09],
     #v[0x09, 0x0e, 0x0b, 0x0d],
     #v[0x0d, 0x09, 0x0e, 0x0b],
     #v[0x0b, 0x0d, 0x09, 0x0e]]

/-- `InvMixColumns` (R253). -/
def invMixColumns (s : Block) : Block := .of fun r c => mulRow invMixMatrix (fun k => s.get k c) r

/-- `InvMixColumnsWord` (R253): the same map on one column word. INIT uses it to build `DK` (R176). -/
def invMixColumnsWord (w : Word) : Word :=
  let m := mulRow invMixMatrix (fun k => byteOf k w)
  word (m 0) (m 1) (m 2) (m 3)

/-- One of the full rounds of R254, in the order that 90_conflicts.md C1 resolves to. -/
def decRound (dk : Vector Word 60) (s : Block) (round : Nat) : Block :=
  addRoundKey (invMixColumns (invShiftRows (invSubBytes s))) (roundKey dk round)

/-- `EqInvCipher` (R254). -/
def eqInvCipher (input : Block) (dk : Vector Word 60) (nr : Nat) : Block :=
  let s := addRoundKey input (roundKey dk 0)
  let s := (List.range' 1 (nr - 1)).foldl (decRound dk) s
  addRoundKey (invShiftRows (invSubBytes s)) (roundKey dk nr)

/-- One of the full rounds of the plain inverse cipher (R256). -/
def plainDecRound (ek : Vector Word 60) (s : Block) (round : Nat) : Block :=
  invMixColumns (addRoundKey (invSubBytes (invShiftRows s)) (roundKey ek round))

/-- `InvCipher` (R256), the plain inverse cipher over `EK`. No command runs it: R256 says it gives what
`eqInvCipher` gives. -/
def invCipher (input : Block) (ek : Vector Word 60) (nr : Nat) : Block :=
  let s := addRoundKey input (roundKey ek nr)
  let s := (List.range' 1 (nr - 1)).reverse.foldl (plainDecRound ek) s
  addRoundKey (invSubBytes (invShiftRows s)) (roundKey ek 0)

/-- `DEC` (R250), run at completion (R113). -/
def execDec (dlen : Nat) (s : State) : Host.Outcome State Fault Refusal :=
  if dlen ≠ 16 then .next (s.raise .invalidBlockSize)
  else if s.keyv = false then .next (s.raise .keyNotLoaded)
  else if ¬ legalRounds s.nr then .next s.writeFreeDout.finish
  else .next (s.writeDout (eqInvCipher (inputBlock s.din) s.dk s.nr.toNat)).finish

end Sys2Proof.Machine
end

