-- ==== Sys2Proof/Machine/KeySchedule.lean ====
section
/-! DEFINITION. INIT (R170): the round count (R171), key expansion (R172-R175), the decryption round keys (R176) and the
command. -/

namespace Sys2Proof.Machine

/-- `RotWord` (R172). -/
def rotWord (w : Word) : Word := w.extractLsb' 0 24 ++ w.extractLsb' 24 8

/-- `SubWord` (R173). -/
def subWord (w : Word) : Word :=
  word (sbox (byteOf 0 w)) (sbox (byteOf 1 w)) (sbox (byteOf 2 w)) (sbox (byteOf 3 w))

/-- `Nk = KLEN / 4` (R171). -/
def keyWordCount (klen : Nat) : Nat := klen / 4

/-- `Nr = Nk + 6` (R171). -/
def roundCount (klen : Nat) : Nat := keyWordCount klen + 6

/-- The number of words of a schedule, `4*(Nr+1)` (R175). -/
def scheduleLength (nr : Nat) : Nat := 4 * (nr + 1)

/-- The transform of the word just before word `i` (R174). -/
def expansionTemp (nk i : Nat) (t : Word) : Word :=
  if i % nk = 0 then subWord (rotWord t) ^^^ rcon (i / nk)
  else if nk = 8 ∧ i % nk = 4 then subWord t
  else t

/-- The words so far, and word `i` after them: `w[i] = w[i-Nk] ^ t` (R174). -/
def expandWord (nk : Nat) (w : List Word) (i : Nat) : List Word :=
  w ++ [w.getD (i - nk) 0 ^^^ expansionTemp nk i (w.getD (i - 1) 0)]

/-- `KeyExpansion` (R174), from the key's `nk` words: `i` runs from `Nk` to `4*(Nr+1) - 1`. -/
def keyExpansion (key : List Word) (nk nr : Nat) : List Word :=
  (List.range' nk (scheduleLength nr - nk)).foldl (expandWord nk) key

/-- Word `i = 4r + c` of `DecKeys` (R176): round keys in reverse order, `InvMixColumnsWord` on all but the first and
the last. -/
def decKeyWord (w : List Word) (nr i : Nat) : Word :=
  let r := i / 4
  let c := i % 4
  if r = 0 ∨ r = nr then w.getD (4 * (nr - r) + c) 0
  else invMixColumnsWord (w.getD (4 * (nr - r) + c) 0)

/-- `DecKeys` (R176). -/
def decKeys (w : List Word) (nr : Nat) : List Word :=
  (List.range (scheduleLength nr)).map (decKeyWord w nr)

/-- `INIT` (R170), run at completion (R113). -/
def execInit (klen dlen : Nat) (s : State) : Host.Outcome State Fault Refusal :=
  if klen ∉ [16, 24, 32] then .next (s.raise .invalidKeySize)
  else if dlen ≠ klen then .next (s.raise .invalidKeyLength)
  else
    let nk := keyWordCount klen
    let nr := roundCount klen
    let w := keyExpansion (keyWords (keyBytes s.din klen) nk) nk nr
    let d := decKeys w nr
    .next (s.loadSchedule w d nr).finish

end Sys2Proof.Machine
end

