-- ==== Sys2Proof/Machine/Dispatch.lean ====
section
/-! DEFINITION. What each command does at its completion: one arm per constructor of `Instr` (R113). -/

namespace Sys2Proof.Machine

def exec (i : Instr) (s : State) : Host.Outcome State Fault Refusal :=
  match i with
  | .init klen dlen => Sys2Proof.Machine.execInit klen dlen s
  | .enc dlen => Sys2Proof.Machine.execEnc dlen s
  | .dec dlen => Sys2Proof.Machine.execDec dlen s

end Sys2Proof.Machine
end

