-- ==== Sys2Proof/Machine/Engine.lean ====
section
/-! DEFINITION. The engine and the machine's one step: the engine's `Complete` (R7, R113) and what happens next at the
block (R7, R81, R340, R348). -/

namespace Sys2Proof.Machine

/-- `Complete` (R113): run the latched command. An illegal word raises IllegalCommand (R304). -/
def complete (s : State) : Host.Outcome State Fault Refusal :=
  match decode s.cmd with
  | .illegal _ => .next (s.raise .illegalCommand)
  | .command i => exec i s

/-- The engine's turn: `Complete` is "enabled exactly when `BUSY = 1`" (R7). -/
def engineStep (s : State) : Host.Outcome State Fault Refusal :=
  if s.busy then complete s else .next s

/-- What happens next at the block. With no input left to come the engine alone can move, so a pending command
completes: the fairness of R348. An idle block waits (R317, R342). -/
def advance (s : State) : Host.Outcome State Fault Refusal :=
  match s.inputs with
  | [] => engineStep s
  | .engineTurn :: rest => engineStep { s with inputs := rest }
  | .access a :: rest => .next (({ s with inputs := rest } : State).performAccess a)
  | .resetLine asserted :: rest => .next (({ s with inputs := rest } : State).driveReset asserted)

/-- The command word `v` is accepted (R78), reset is not asserted, and the engine has the next turn: what a run needs
so that its very next step completes that command. -/
def State.placeCommand (s : State) (v : Word) : State :=
  { s.accept v with inReset := false, inputs := .engineTurn :: s.inputs }

end Sys2Proof.Machine
end

