-- ==== Sys2Proof/Machine/Step.lean ====
section
/-! DEFINITION. The machine's step, and where an instruction that it runs next is placed. This block "fetches no
instructions" (R32): a command is run when its word is latched in `CMD` and `BUSY` is 1 (R113). -/

namespace Sys2Proof.Machine

/-- One step of the machine. -/
def step (s : State) : Host.Outcome State Fault Refusal := advance s

/-- `s` with the word of an opcode-table row accepted as the pending command, the engine's turn next, so that
`step` completes exactly it. -/
def State.withFetchWord (s : State) (nbits w : Nat) : State := s.placeCommand (tableWord nbits w)

end Sys2Proof.Machine
end

