-- ==== Sys2Proof/Machine/Transactions.lean ====
section
/-! DEFINITION. Host programs as the machine's input (R114, R115): a transaction is one access of the window, a program is its
list of transactions, and the pseudo-instructions expand into lists. Offsets are the window's; the platform's part, which
address reaches which offset (R70, D19), is `platformAccess`. -/

namespace Sys2Proof.Machine

/-- `WR <reg>, <value>` (R114): `MemWrite(offset(reg), 4, value)`. -/
def wr (r : Reg) (v : Word) : Input := .access (.write .w32 r.offset v)

/-- `RD <reg>` (R114): `MemRead(offset(reg), 4)`. -/
def rd (r : Reg) : Input := .access (.read .w32 r.offset)

/-- `WR DINi, w` for the words of a list, in rising `i` from `first` (R115). -/
def wrDinFrom : Nat → List Word → List Input
  | _, [] => []
  | i, w :: ws => wr (.din (Fin.ofNat 8 i)) w :: wrDinFrom (i + 1) ws

/-- `LDKEY k`, for a key of 16, 24 or 32 bytes, byte 0 first (R115). -/
def ldkey (k : List Byte) : List Input := wrDinFrom 0 (keyWords k (k.length / 4))

/-- `LDBLK b`, for a block of 16 bytes (R115). -/
def ldblk (b : Block) : List Input := wrDinFrom 0 b.words.toList

/-- `INIT128`, `INIT192` and `INIT256` (R108, R115). -/
def init128 : Input := wr .cmd 0x00101001
def init192 : Input := wr .cmd 0x00181801
def init256 : Input := wr .cmd 0x00202001

/-- `ENC` and `DEC` (R108, R115). -/
def encCommand : Input := wr .cmd 0x00100002
def decCommand : Input := wr .cmd 0x00100003

/-- `WAIT` (R115) as it runs when `polls` reads of `STATUS` come before the engine's turn: those reads return `BUSY` = 1,
and one more returns 0. How many there are is the command's latency, "any number" (R348). -/
def wait (polls : Nat) : List Input := List.replicate polls (rd .status) ++ [.engineTurn, rd .status]

/-- `RDOUT` (R115). -/
def rdout : List Input := [rd (.dout 0), rd (.dout 1), rd (.dout 2), rd (.dout 3)]

/-- An access that a host makes at a platform address, as the block sees it: at the window offset that the address
selects, none where it selects no offset of the window (R70), since the access then never reaches the block. -/
def platformAccess (addr : Nat) (access : Offset → Access) : Option Input :=
  (Config.windowOffset addr).map fun off => .access (access off)

end Sys2Proof.Machine
end

