-- ==== Sys2Proof/Safety.lean ====
section
/-! DEFINITION. The terms that claims about whole runs use: the result a command must report (R306), what the registers
always satisfy (R36, R37, R44, R79, R340), what a loaded schedule always satisfies (R38, R174, R176), and a step that
does not stop. -/

namespace Sys2Proof.Machine

/-- `result(CMD, KEYV)` (R306): the one code that a command reports, the first cause in this order. -/
def commandResult (d : Decoded) (keyv : Bool) : ErrCode :=
  match d with
  | .illegal _ => .illegalCommand
  | .command (.init klen dlen) =>
    if klen ≠ 16 ∧ klen ≠ 24 ∧ klen ≠ 32 then .invalidKeySize
    else if dlen ≠ klen then .invalidKeyLength else .ok
  | .command (.enc dlen) => if dlen ≠ 16 then .invalidBlockSize else if keyv then .ok else .keyNotLoaded
  | .command (.dec dlen) => if dlen ≠ 16 then .invalidBlockSize else if keyv then .ok else .keyNotLoaded

/-- Every register that R48 gives a reset value holds it. -/
structure State.AtReset (s : State) : Prop where
  nr : s.nr = 0
  keyv : s.keyv = false
  din : s.din = Vector.replicate 8 0
  dout : s.dout = Vector.replicate 4 0
  cmd : s.cmd = 0
  busy : s.busy = false
  done : s.done = false
  err : s.err = .ok

/-- The register invariant. -/
structure State.Inv (s : State) : Prop where
  /-- "`KEYV = 0` implies `NR = 0`" (R37). -/
  unloaded : s.keyv = false → s.nr = 0
  /-- "`KEYV = 1` implies `NR` is in {10, 12, 14}" (R37). -/
  loaded : s.keyv = true → legalRounds s.nr
  /-- "`STATUS` returns `BUSY = 1`, `DONE = 0`, `ERR = 0`" while a command is pending (R79). -/
  pending : s.busy = true → s.done = false ∧ s.err = .ok
  /-- "`DONE = 0` with `BUSY = 0` holds only after reset, before the first command" (R44): nothing but `DIN` has been
  written since. -/
  fresh : s.busy = false → s.done = false →
    s.nr = 0 ∧ s.keyv = false ∧ s.dout = Vector.replicate 4 0 ∧ s.cmd = 0 ∧ s.err = .ok
  /-- While reset is asserted every register holds its reset value (R340). -/
  held : s.inReset = true → s.AtReset

/-- While a schedule is loaded, `EK` is the expansion of its own first `Nk` words (R174) and `DK` the decryption keys
of `EK` (R176), in all the words that the schedule uses. -/
structure State.ScheduleOk (s : State) : Prop where
  expanded : s.keyv = true → ∀ i : Fin 60, i.val < scheduleLength s.nr.toNat →
    s.ek[i] = (keyExpansion (s.ek.toList.take (s.nr.toNat - 6)) (s.nr.toNat - 6) s.nr.toNat).getD i.val 0
  inverted : s.keyv = true → ∀ i : Fin 60, i.val < scheduleLength s.nr.toNat →
    s.dk[i] = decKeyWord s.ek.toList s.nr.toNat i.val

/-- The machine goes on from `s`: its step is neither a fault nor a refusal. -/
def State.GoesOn (s : State) : Prop := ∃ t, step s = .next t

/-- The engine has the next turn: it is given one (R7), or no input is left to come, where the fairness of R348 is taken
to give it one (DEDUCED, notes/assumptions/4.md). -/
def State.EngineNext (s : State) : Prop := s.inputs = [] ∨ ∃ rest, s.inputs = .engineTurn :: rest

end Sys2Proof.Machine
end

