-- ==== Sys2Proof/Certificates/Slice0/Obligations.lean ====
section
/-! DEFINITION. The statements about the model, for the provers: encodings, tables and transforms, the three commands, the
register window, reset, and the rules that hold of every step. -/

open Sys2Proof Sys2Proof.Machine

/-! ### Command encoding -/

/-- R108: the canonical command words decode to the commands they stand for, each word written out bit by bit from the
patterns of R100 (`RSV1 DLEN KLEN RSV0 OP`). -/
def Obligations.CanonicalWordsDecode : Prop :=
  decode 0b00000000_00010000_00010000_0000_0001 = .command (.init 16 16) ∧
  decode 0b00000000_00011000_00011000_0000_0001 = .command (.init 24 24) ∧
  decode 0b00000000_00100000_00100000_0000_0001 = .command (.init 32 32) ∧
  decode 0b00000000_00010000_00000000_0000_0010 = .command (.enc 16) ∧
  decode 0b00000000_00010000_00000000_0000_0011 = .command (.dec 16)

/-- R105: decoding every word, with the fields of R100 taken from the word's value by division, and the completion of
an illegal word. -/
def Obligations.DecodeReadsTheFields : Prop :=
  ∀ v : Word,
    let op := v.toNat % 16
    let rsv0 := v.toNat / 2 ^ 4 % 16
    let klen := v.toNat / 2 ^ 8 % 256
    let dlen := v.toNat / 2 ^ 16 % 256
    let rsv1 := v.toNat / 2 ^ 24
    ((rsv0 ≠ 0 ∨ rsv1 ≠ 0) → ∃ why, decode v = .illegal why) ∧
    (rsv0 = 0 → rsv1 = 0 →
      (op = 1 → decode v = .command (.init klen dlen)) ∧
      (op = 2 → klen = 0 → decode v = .command (.enc dlen)) ∧
      (op = 3 → klen = 0 → decode v = .command (.dec dlen)) ∧
      (op ≠ 1 → ¬ ((op = 2 ∨ op = 3) ∧ klen = 0) → ∃ why, decode v = .illegal why)) ∧
    (∀ (s : State) (why : IllegalReason), decode v = .illegal why →
      complete { s with cmd := v } =
        .next { s with cmd := v, err := .illegalCommand, done := true, busy := false })

/-- R106: exactly which words are illegal (0 among them), and that an illegal word is accepted like any other, after
which its completion reports IllegalCommand and changes nothing else. -/
def Obligations.IllegalWordsAreAcceptedAndReported : Prop :=
  ∀ v : Word,
    ((∃ why, decode v = .illegal why) ↔
      (v.toNat % 16 = 0 ∨ 4 ≤ v.toNat % 16) ∨ v.toNat / 2 ^ 4 % 16 ≠ 0 ∨ v.toNat / 2 ^ 24 ≠ 0 ∨
        ((v.toNat % 16 = 2 ∨ v.toNat % 16 = 3) ∧ v.toNat / 2 ^ 8 % 256 ≠ 0)) ∧
    (∀ (s : State) (rest : List Input), (∃ why, decode v = .illegal why) →
      s.busy = false → s.inReset = false → s.inputs = wr .cmd v :: .engineTurn :: rest →
      Host.Core.run Sys2Proof.core 2 s =
        .next { s with
          cmd := v, busy := false, done := true, err := .illegalCommand, inputs := rest
          responses := .writeDone false :: s.responses })

/-- Every well-formed command survives encoding and decoding, with every count its fields admit. -/
def Obligations.DecodeEncodeAgree : Prop :=
  ∀ i : Instr, i.wellFormed = true → decode (encode i) = .command i

/-- A word that decodes to a command is that command's only word, and the command is well formed. -/
def Obligations.EncodeDecodeAgree : Prop :=
  ∀ (v : Word) (i : Instr), decode v = .command i → i.wellFormed = true ∧ encode i = v

/-! ### Field arithmetic, tables and layout -/

/-- R132: `xtime` on values, that it is multiplication by 0x02, and the examples. -/
def Obligations.XtimeDoublesInTheField : Prop :=
  (∀ a : Byte, (xtime a).toNat =
    if 128 ≤ a.toNat then (2 * a.toNat % 256) ^^^ 0x1B else 2 * a.toNat) ∧
  (∀ a : Byte, xtime a = gmul 0x02 a) ∧
  xtime 0x57 = 0xae ∧ xtime 0x80 = 0x1b ∧ xtime 0xff = 0xe5 ∧ xtime 0x00 = 0x00

/-- The laws of `•` that R131 lists, with its example; multiplication by 0x02 is `xtime`. -/
def Obligations.FieldMultiplicationLaws : Prop :=
  (∀ a b : Byte, gmul a b = gmul b a) ∧
  (∀ a b c : Byte, gmul (gmul a b) c = gmul a (gmul b c)) ∧
  (∀ a b c : Byte, gmul a (b ^^^ c) = gmul a b ^^^ gmul a c) ∧
  (∀ a : Byte, gmul a 0x00 = 0x00 ∧ gmul a 0x01 = a ∧ gmul 0x02 a = xtime a) ∧
  gmul 0x57 0x83 = 0xc1

/-- R133: `ginv` is the unique inverse of every nonzero byte, and 0 at 0. -/
def Obligations.InverseIsUnique : Prop :=
  (∀ a b : Byte, a ≠ 0x00 → (gmul a b = 0x01 ↔ b = ginv a)) ∧ ginv 0x00 = 0x00 ∧
  ginv 0x53 = 0xca ∧ gmul 0x53 0xca = 0x01

/-- R134: the table that the machine uses is the S-box of the definition, entry by entry. -/
def Obligations.SboxTableIsTheDefinition : Prop :=
  ∀ a : Byte, let b := ginv a
    sbox a = b ^^^ rotl8 b 1 ^^^ rotl8 b 2 ^^^ rotl8 b 3 ^^^ rotl8 b 4 ^^^ 0x63 ∧
      ∀ n, 1 ≤ n → n ≤ 4 → rotl8 b n = b.rotateLeft n

/-- The S-box and its inverse undo each other; the S-box has no fixed point and no opposite fixed point; the spot values
of both tables. -/
def Obligations.SboxIsAPermutation : Prop :=
  (∀ a : Byte, invSbox (sbox a) = a ∧ sbox (invSbox a) = a ∧ sbox a ≠ a ∧ sbox a ≠ ~~~a) ∧
  sbox 0x00 = 0x63 ∧ sbox 0x01 = 0x7c ∧ sbox 0x53 = 0xed ∧ sbox 0xff = 0x16 ∧
  invSbox 0x00 = 0x52 ∧ invSbox 0x63 = 0x00 ∧ invSbox 0xed = 0x53 ∧ invSbox 0x16 = 0xff ∧ invSbox 0xff = 0x7d

/-- R137: the round constants, and the indices that key expansion uses for the three key sizes: 1-10, 1-8 and 1-7. Every
word `i` from `Nk` on is made with `expansionTemp nk i`; where `Nk` divides `i` that transform adds `Rcon[i / Nk]`, whose
index is then one of these; elsewhere it adds no round constant; and each of these indices is used by some word. -/
def Obligations.RoundConstants : Prop :=
  (∀ i, 1 ≤ i → rcon i = rc i ++ (0x00 : Byte) ++ (0x00 : Byte) ++ (0x00 : Byte)) ∧
  rc 1 = 0x01 ∧ (∀ i, 2 ≤ i → rc i = xtime (rc (i - 1))) ∧
  (List.range' 1 10).map rcon =
    [0x01000000, 0x02000000, 0x04000000, 0x08000000, 0x10000000, 0x20000000, 0x40000000, 0x80000000,
      0x1b000000, 0x36000000] ∧
  (∀ nk top, (nk, top) ∈ [(4, 10), (6, 8), (8, 7)] →
    top = (scheduleLength (nk + 6) + nk - 1) / nk - 1 ∧
    (∀ key : List Word, key.length = nk →
      let w := keyExpansion key nk (nk + 6)
      ∀ i, nk ≤ i → i < scheduleLength (nk + 6) →
        w.getD i 0 = w.getD (i - nk) 0 ^^^ expansionTemp nk i (w.getD (i - 1) 0)) ∧
    (∀ i, nk ≤ i → i < scheduleLength (nk + 6) →
      (i % nk = 0 → 1 ≤ i / nk ∧ i / nk ≤ top ∧ ∀ t, expansionTemp nk i t = subWord (rotWord t) ^^^ rcon (i / nk)) ∧
      (i % nk ≠ 0 → ∀ t, expansionTemp nk i t = if nk = 8 ∧ i % nk = 4 then subWord t else t)) ∧
    (∀ j, 1 ≤ j → j ≤ top → ∃ i, nk ≤ i ∧ i < scheduleLength (nk + 6) ∧
      ∀ t, expansionTemp nk i t = subWord (rotWord t) ^^^ rcon j))

/-- R138: words and bytes, the first byte most significant, the words of a key, and a round key's bytes on the state. -/
def Obligations.WordsArePackedBigEndian : Prop :=
  (∀ b0 b1 b2 b3 : Byte,
    (word b0 b1 b2 b3).toNat = b0.toNat * 2 ^ 24 + b1.toNat * 2 ^ 16 + b2.toNat * 2 ^ 8 + b3.toNat) ∧
  (∀ (w : Word) (k : Fin 4), (byteOf k w).toNat = w.toNat / 2 ^ (24 - 8 * k.val) % 256) ∧
  (∀ w : Word, word (byteOf 0 w) (byteOf 1 w) (byteOf 2 w) (byteOf 3 w) = w) ∧
  (∀ (key : List Byte) (nk i : Nat) (b0 b1 b2 b3 : Byte), i < nk →
    key[4 * i]? = some b0 → key[4 * i + 1]? = some b1 → key[4 * i + 2]? = some b2 → key[4 * i + 3]? = some b3 →
    (keyWords key nk)[i]? = some (word b0 b1 b2 b3)) ∧
  (∀ (s : Block) (rk : Vector Word 4) (r c : Fin 4), (addRoundKey s rk).get r c = s.get r c ^^^ byteOf r rk[c])

/-- R76: byte `j` of `DIN` and of `DOUT`, the words put together again, and key word `i` is `DIN[i]`. -/
def Obligations.DataRegisterByteOrder : Prop :=
  (∀ (din : Vector Word 8) (j : Fin 32),
    (dinByte din j).toNat = (din[j.val / 4]).toNat / 2 ^ (24 - 8 * (j.val % 4)) % 256) ∧
  (∀ (out : Block) (j : Fin 16),
    (out[j]).toNat = (out.words[j.val / 4]).toNat / 2 ^ (24 - 8 * (j.val % 4)) % 256) ∧
  (∀ (din : Vector Word 8) (k : Fin 8),
    din[k] = dinByte din ⟨4 * k.val, by omega⟩ ++ dinByte din ⟨4 * k.val + 1, by omega⟩ ++
      dinByte din ⟨4 * k.val + 2, by omega⟩ ++ dinByte din ⟨4 * k.val + 3, by omega⟩) ∧
  (∀ (din : Vector Word 8) (nk : Nat), nk = 4 ∨ nk = 6 ∨ nk = 8 →
    keyWords (keyBytes din (4 * nk)) nk = din.toList.take nk) ∧
  (∀ din : Vector Word 8, din[0] = 0x00010203 →
    keyBytes din 4 = [0x00, 0x01, 0x02, 0x03])

/-- R139: the state is filled column by column, and its columns are `DIN[c]` on the way in and `DOUT[c]` on the way
out. -/
def Obligations.StateColumnsAreDataWords : Prop :=
  (∀ (s : Block) (r c : Fin 4), s.get r c = s[r.val + 4 * c.val]) ∧
  (∀ (f : Fin 4 → Fin 4 → Byte) (r c : Fin 4), (Block.of f)[r.val + 4 * c.val] = f r c) ∧
  (∀ (din : Vector Word 8) (r c : Fin 4),
    (inputBlock din).get r c = dinByte din ⟨r.val + 4 * c.val, by omega⟩) ∧
  (∀ (din : Vector Word 8) (c : Fin 4), (inputBlock din).column c = din[c.val]) ∧
  (∀ (s : Block) (c : Fin 4),
    s.words[c] = word (s.get 0 c) (s.get 1 c) (s.get 2 c) (s.get 3 c))

/-! ### Round transforms -/

/-- R211 and R251: one table look-up per byte, and the inverse undoes it. -/
def Obligations.SubBytesActsByteByByte : Prop :=
  (∀ (s : Block) (i : Fin 16), (subBytes s)[i] = sbox s[i] ∧ (invSubBytes s)[i] = invSbox s[i]) ∧
  (∀ s : Block, invSubBytes (subBytes s) = s) ∧
  subBytes #v[0x00, 0x01, 0x02, 0x03, 0x04, 0x05, 0x06, 0x07, 0x08, 0x09, 0x0a, 0x0b, 0x0c, 0x0d, 0x0e, 0x0f] =
    #v[0x63, 0x7c, 0x77, 0x7b, 0xf2, 0x6b, 0x6f, 0xc5, 0x30, 0x01, 0x67, 0x2b, 0xfe, 0xd7, 0xab, 0x76] ∧
  invSbox 0x63 = 0x00 ∧ invSbox 0x00 = 0x52

/-- R212 and R252: the byte permutations, that the second undoes the first, and the examples. -/
def Obligations.ShiftRowsRotatesRows : Prop :=
  (∀ (s : Block) (r c : Nat) (hr : r < 4) (hc : c < 4),
    (shiftRows s)[r + 4 * c] = s[r + 4 * ((c + r) % 4)]'(by omega) ∧
    (invShiftRows s)[r + 4 * c] = s[r + 4 * ((c + 4 - r) % 4)]'(by omega)) ∧
  (∀ s : Block, invShiftRows (shiftRows s) = s) ∧
  shiftRows #v[0x00, 0x01, 0x02, 0x03, 0x04, 0x05, 0x06, 0x07, 0x08, 0x09, 0x0a, 0x0b, 0x0c, 0x0d, 0x0e, 0x0f] =
    #v[0x00, 0x05, 0x0a, 0x0f, 0x04, 0x09, 0x0e, 0x03, 0x08, 0x0d, 0x02, 0x07, 0x0c, 0x01, 0x06, 0x0b] ∧
  invShiftRows #v[0x00, 0x01, 0x02, 0x03, 0x04, 0x05, 0x06, 0x07, 0x08, 0x09, 0x0a, 0x0b, 0x0c, 0x0d, 0x0e, 0x0f] =
    #v[0x00, 0x0d, 0x0a, 0x07, 0x04, 0x01, 0x0e, 0x0b, 0x08, 0x05, 0x02, 0x0f, 0x0c, 0x09, 0x06, 0x03]

/-- R213: the four row formulas of MixColumns, its map on one column word, and the examples. -/
def Obligations.MixColumnsMultipliesColumns : Prop :=
  (∀ (s : Block) (c : Fin 4),
    (mixColumns s).get 0 c = gmul 0x02 (s.get 0 c) ^^^ gmul 0x03 (s.get 1 c) ^^^ s.get 2 c ^^^ s.get 3 c ∧
    (mixColumns s).get 1 c = s.get 0 c ^^^ gmul 0x02 (s.get 1 c) ^^^ gmul 0x03 (s.get 2 c) ^^^ s.get 3 c ∧
    (mixColumns s).get 2 c = s.get 0 c ^^^ s.get 1 c ^^^ gmul 0x02 (s.get 2 c) ^^^ gmul 0x03 (s.get 3 c) ∧
    (mixColumns s).get 3 c = gmul 0x03 (s.get 0 c) ^^^ s.get 1 c ^^^ s.get 2 c ^^^ gmul 0x02 (s.get 3 c) ∧
    (mixColumns s).column c = mixColumnsWord (s.column c)) ∧
  (∀ a : Byte, gmul 0x02 a = xtime a) ∧
  [0xdb135345, 0xf20a225c, 0xd4d4d4d5, 0x2d26314c, 0x01010101, 0xc6c6c6c6, 0x00000000, 0xffffffff].map mixColumnsWord =
    [0x8e4da1bc, 0x9fdc589d, 0xd5d5d7d6, 0x4d7ebdf8, 0x01010101, 0xc6c6c6c6, 0x00000000, 0xffffffff]

/-- R253: the four row formulas of InvMixColumns, its map on one column word, that it undoes MixColumns and is linear,
and the examples. -/
def Obligations.InvMixColumnsUndoesMixColumns : Prop :=
  (∀ (s : Block) (c : Fin 4),
    (invMixColumns s).get 0 c =
      gmul 0x0e (s.get 0 c) ^^^ gmul 0x0b (s.get 1 c) ^^^ gmul 0x0d (s.get 2 c) ^^^ gmul 0x09 (s.get 3 c) ∧
    (invMixColumns s).get 1 c =
      gmul 0x09 (s.get 0 c) ^^^ gmul 0x0e (s.get 1 c) ^^^ gmul 0x0b (s.get 2 c) ^^^ gmul 0x0d (s.get 3 c) ∧
    (invMixColumns s).get 2 c =
      gmul 0x0d (s.get 0 c) ^^^ gmul 0x09 (s.get 1 c) ^^^ gmul 0x0e (s.get 2 c) ^^^ gmul 0x0b (s.get 3 c) ∧
    (invMixColumns s).get 3 c =
      gmul 0x0b (s.get 0 c) ^^^ gmul 0x0d (s.get 1 c) ^^^ gmul 0x09 (s.get 2 c) ^^^ gmul 0x0e (s.get 3 c) ∧
    (invMixColumns s).column c = invMixColumnsWord (s.column c)) ∧
  (∀ s : Block, invMixColumns (mixColumns s) = s) ∧
  (∀ s t : Block, invMixColumns (.of fun r c => s.get r c ^^^ t.get r c) =
    .of fun r c => (invMixColumns s).get r c ^^^ (invMixColumns t).get r c) ∧
  [0x8e4da1bc, 0x9fdc589d, 0x549932d1].map invMixColumnsWord = [0xdb135345, 0xf20a225c, 0x13aa29be]

/-- R214: AddRoundKey byte by byte and column by column, and that it is its own inverse. -/
def Obligations.AddRoundKeyXorsColumns : Prop :=
  (∀ (s : Block) (rk : Vector Word 4) (r c : Fin 4),
    (addRoundKey s rk).get r c = s.get r c ^^^ byteOf r rk[c]) ∧
  (∀ (s : Block) (rk : Vector Word 4) (c : Fin 4), (addRoundKey s rk).column c = s.column c ^^^ rk[c]) ∧
  (∀ (s : Block) (rk : Vector Word 4), addRoundKey (addRoundKey s rk) rk = s)

/-! ### Key schedule -/

/-- R172 and R173: `RotWord` and `SubWord`, with their examples. -/
def Obligations.RotWordAndSubWord : Prop :=
  (∀ a0 a1 a2 a3 : Byte, rotWord (word a0 a1 a2 a3) = word a1 a2 a3 a0) ∧
  (∀ a0 a1 a2 a3 : Byte, subWord (word a0 a1 a2 a3) = word (sbox a0) (sbox a1) (sbox a2) (sbox a3)) ∧
  rotWord 0x09cf4f3c = 0xcf4f3c09 ∧ rotWord 0x01020304 = 0x02030401 ∧
  subWord 0xcf4f3c09 = 0x8a84eb01 ∧ subWord 0x00000000 = 0x63636363

/-- R174: the words of the key, the recurrence for every later word, and the examples; the sizes of R175 (44, 52 or 60
words). -/
def Obligations.KeyExpansionRecurrence : Prop :=
  (∀ (key : List Byte) (nk : Nat), nk = 4 ∨ nk = 6 ∨ nk = 8 → key.length = 4 * nk →
    let nr := nk + 6
    let w := keyExpansion (keyWords key nk) nk nr
    w.length = 4 * (nr + 1) ∧
    (∀ i, i < nk → w.getD i 0 =
      word (key.getD (4 * i) 0) (key.getD (4 * i + 1) 0) (key.getD (4 * i + 2) 0) (key.getD (4 * i + 3) 0)) ∧
    ∀ i, nk ≤ i → i < 4 * (nr + 1) →
      w.getD i 0 = w.getD (i - nk) 0 ^^^
        (if i % nk = 0 then subWord (rotWord (w.getD (i - 1) 0)) ^^^ rcon (i / nk)
         else if nk = 8 ∧ i % nk = 4 then subWord (w.getD (i - 1) 0)
         else w.getD (i - 1) 0)) ∧
  (keyExpansion [0x00010203, 0x04050607, 0x08090a0b, 0x0c0d0e0f] 4 10)[4]? = some 0xd6aa74fd ∧
  (keyExpansion [0x2b7e1516, 0x28aed2a6, 0xabf71588, 0x09cf4f3c] 4 10)[4]? = some 0xa0fafe17 ∧
  (keyExpansion [0x2b7e1516, 0x28aed2a6, 0xabf71588, 0x09cf4f3c] 4 10)[43]? = some 0xb6630ca6

/-- R176: the decryption round keys, in whole round keys in reverse order, with its example. -/
def Obligations.DecryptionRoundKeys : Prop :=
  (∀ (w : List Word) (nr r : Nat) (c : Fin 4), w.length = 4 * (nr + 1) → r ≤ nr →
    (decKeys w nr).length = 4 * (nr + 1) ∧
    (decKeys w nr).getD (4 * r + c.val) 0 =
      if r = 0 ∨ r = nr then w.getD (4 * (nr - r) + c.val) 0
      else invMixColumnsWord (w.getD (4 * (nr - r) + c.val) 0)) ∧
  ((decKeys (keyExpansion [0x00010203, 0x04050607, 0x08090a0b, 0x0c0d0e0f] 4 10) 10).drop 4).take 4 =
    [0x13aa29be, 0x9c8faff6, 0xf770f580, 0x00f7bf03] ∧
  ((keyExpansion [0x00010203, 0x04050607, 0x08090a0b, 0x0c0d0e0f] 4 10).drop 36).take 4 =
    [0x549932d1, 0xf0855768, 0x1093ed9c, 0xbe2c974e]

/-! ### The commands -/

/-- INIT with a legal key length and a matching buffer length completes in every state (R170): the schedule of the key
words `DIN[0..Nk-1]` in `EK` and `DK`, `NR`, `KEYV`, and the end of the command (R113). Its frame: `DIN`, `DOUT` and
`CMD`, the reset input and the environment are as before. The words of `EK` and `DK` from `4*(Nr+1)` on are not spoken
of (R35). The block has no memory. -/
def Obligations.InitLoadsTheKey : Prop :=
  ∀ (s : State) (klen : Nat), klen = 16 ∨ klen = 24 ∨ klen = 32 →
    let nk := klen / 4
    let nr := nk + 6
    let w := keyExpansion (s.din.toList.take nk) nk nr
    ∃ t, exec (.init klen klen) s = .next t ∧
      (∀ i : Fin 60, i.val < 4 * (nr + 1) → t.ek[i] = w.getD i.val 0 ∧ t.dk[i] = (decKeys w nr).getD i.val 0) ∧
      t.nr = BitVec.ofNat 4 nr ∧ t.keyv = true ∧ t.err = .ok ∧ t.done = true ∧ t.busy = false ∧
      t.din = s.din ∧ t.dout = s.dout ∧ t.cmd = s.cmd ∧ t.inReset = s.inReset ∧ t.inputs = s.inputs ∧
      t.responses = s.responses

/-- ENC of a 16-byte block under a loaded schedule (R210): `DOUT` is the cipher of `DIN[0..3]`, the command ends (R113),
and everything else is as before (R216). -/
def Obligations.EncWritesTheCiphertext : Prop :=
  ∀ s : State, s.keyv = true → legalRounds s.nr →
    exec (.enc 16) s = .next { s with
      dout := (cipher (inputBlock s.din) s.ek s.nr.toNat).words
      err := .ok, done := true, busy := false }

/-- DEC of a 16-byte block under a loaded schedule (R250): `DOUT` is the equivalent inverse cipher of `DIN[0..3]`, the
command ends (R113), and everything else is as before (R257). -/
def Obligations.DecWritesThePlaintext : Prop :=
  ∀ s : State, s.keyv = true → legalRounds s.nr →
    exec (.dec 16) s = .next { s with
      dout := (eqInvCipher (inputBlock s.din) s.dk s.nr.toNat).words
      err := .ok, done := true, busy := false }

/-- R307 and R308: a command whose lengths or key state are wrong ends with its code, and nothing but `ERR`, `DONE` and
`BUSY` changes: `EK`, `DK`, `NR`, `KEYV`, `DOUT`, `DIN` and `CMD` keep their values. -/
def Obligations.FailedCommandChangesOnlyTheResult : Prop :=
  ∀ (s : State) (d : Decoded), decode s.cmd = d → commandResult d s.keyv ≠ .ok →
    complete s = .next { s with err := commandResult d s.keyv, done := true, busy := false }

/-- R300 and R306: the one code that a completed command reports, from `CMD` and `KEYV` alone, in the order of the rule,
and the codes' values, which leave 0x6-0xF unused. -/
def Obligations.CompletionReportsTheFirstCause : Prop :=
  ∀ s : State, ∃ t, complete s = .next t ∧
    ((∃ why, decode s.cmd = .illegal why) → t.err = .illegalCommand) ∧
    (∀ klen dlen, decode s.cmd = .command (.init klen dlen) →
      t.err = if klen ≠ 16 ∧ klen ≠ 24 ∧ klen ≠ 32 then .invalidKeySize
        else if dlen ≠ klen then .invalidKeyLength else .ok) ∧
    (∀ dlen, decode s.cmd = .command (.enc dlen) ∨ decode s.cmd = .command (.dec dlen) →
      t.err = if dlen ≠ 16 then .invalidBlockSize else if s.keyv = false then .keyNotLoaded else .ok) ∧
    [ErrCode.ok, .invalidKeySize, .invalidKeyLength, .invalidBlockSize, .illegalCommand, .keyNotLoaded].map
      ErrCode.code = [0x0, 0x1, 0x2, 0x3, 0x4, 0x5] ∧
    t.err.code.toNat < 6

/-- The model's choice (notes/assumptions/9.md): when `KEYV` is 1 and `NR` is no legal round count, a state that R36 and
R37 exclude, ENC and DEC of 16 bytes still complete as R113 says and leave everything but `DOUT` and the model's own
counter as it is. What they write to `DOUT` is left open. -/
def Obligations.IllegalRoundCountLeavesDoutOpen : Prop :=
  ∀ s : State, s.keyv = true → ¬ legalRounds s.nr → ∀ i, i = .enc 16 ∨ i = .dec 16 →
    ∃ (out : Vector Word 4) (n : Nat),
      exec i s = .next { s with dout := out, err := .ok, done := true, busy := false, freeCtr := n }

/-- The known answers of 95_test_vectors.md V-KAT-1 to V-KAT-3, both ways, whatever the words beyond the schedule
hold. -/
def Obligations.KnownAnswers : Prop :=
  let plain : Block := #v[0x00, 0x11, 0x22, 0x33, 0x44, 0x55, 0x66, 0x77, 0x88, 0x99, 0xaa, 0xbb, 0xcc, 0xdd, 0xee, 0xff]
  let key : List Word := [0x00010203, 0x04050607, 0x08090a0b, 0x0c0d0e0f, 0x10111213, 0x14151617, 0x18191a1b, 0x1c1d1e1f]
  ∀ (nk : Nat) (answer : List Word),
    (nk, answer) ∈ [(4, [0x69c4e0d8, 0x6a7b0430, 0xd8cdb780, 0x70b4c55a]),
      (6, [0xdda97ca4, 0x864cdfe0, 0x6eaf70a0, 0xec0d7191]),
      (8, [0x8ea2b7ca, 0x516745bf, 0xeafc4990, 0x4b496089])] →
    let w := keyExpansion (key.take nk) nk (nk + 6)
    ∀ free : Nat → Word,
      (cipher plain (fileOf w free) (nk + 6)).words.toList = answer ∧
      (∀ c : Block, c.words.toList = answer → eqInvCipher c (fileOf (decKeys w (nk + 6)) free) (nk + 6) = plain)

/-- R217, R218, R257 and R258, with R35: the result of ENC is a function of `NR`, the words of `EK` that the schedule
uses and `DIN[0..3]`, and that of DEC of the same with `DK` for `EK`. Two states that agree on these write the same
`DOUT`, whatever else differs: `DIN[4..7]`, the unused words, the other schedule, and everything that ran before. -/
def Obligations.BlockCommandsDependOnKeyAndBlockOnly : Prop :=
  ∀ s t : State, s.keyv = true → t.keyv = true → legalRounds s.nr → s.nr = t.nr →
    (∀ c : Fin 4, s.din[c.val] = t.din[c.val]) →
    ((∀ i : Fin 60, i.val < 4 * (s.nr.toNat + 1) → s.ek[i] = t.ek[i]) →
      ∃ s' t', exec (.enc 16) s = .next s' ∧ exec (.enc 16) t = .next t' ∧ s'.dout = t'.dout) ∧
    ((∀ i : Fin 60, i.val < 4 * (s.nr.toNat + 1) → s.dk[i] = t.dk[i]) →
      ∃ s' t', exec (.dec 16) s = .next s' ∧ exec (.dec 16) t = .next t' ∧ s'.dout = t'.dout)

/-- R180 with R181: the schedule that INIT loads is a function of the key bytes alone. Two states that agree on
`DIN[0..Nk-1]` load the same schedule, whatever the rest of `DIN` and the old schedule hold. -/
def Obligations.InitDependsOnKeyBytesOnly : Prop :=
  ∀ (s t : State) (klen : Nat), klen = 16 ∨ klen = 24 ∨ klen = 32 →
    (∀ k : Fin 8, k.val < klen / 4 → s.din[k] = t.din[k]) →
    ∃ s' t', exec (.init klen klen) s = .next s' ∧ exec (.init klen klen) t = .next t' ∧ s'.nr = t'.nr ∧
      ∀ i : Fin 60, i.val < 4 * (s'.nr.toNat + 1) → s'.ek[i] = t'.ek[i] ∧ s'.dk[i] = t'.dk[i]

/-- The two equations of R255, for every key of every size and every block, whatever the words beyond the schedule
hold. -/
def Obligations.DecryptionInvertsEncryption : Prop :=
  ∀ (key : List Word) (nk : Nat), nk = 4 ∨ nk = 6 ∨ nk = 8 → key.length = nk →
    ∀ (freeE freeD : Nat → Word) (b : Block),
      let nr := nk + 6
      let w := keyExpansion key nk nr
      let ek := fileOf w freeE
      let dk := fileOf (decKeys w nr) freeD
      eqInvCipher (cipher b ek nr) dk nr = b ∧ cipher (eqInvCipher b dk nr) ek nr = b

/-- R255 on the registers: after a successful INIT from any state, ENC of the block the host then puts into
`DIN[0..3]`, followed by copying `DOUT` to `DIN[0..3]` and DEC, gives that block in `DOUT`. `DIN[4..7]` may hold
anything at every point. -/
def Obligations.RoundTripOnTheRegisters : Prop :=
  ∀ (s : State) (klen : Nat) (block copied : Vector Word 8), klen = 16 ∨ klen = 24 ∨ klen = 32 →
    ∃ t u, exec (.init klen klen) s = .next t ∧ exec (.enc 16) { t with din := block } = .next u ∧
      ((∀ c : Fin 4, copied[c.val] = u.dout[c]) →
        ∃ v, exec (.dec 16) { u with din := copied } = .next v ∧ ∀ c : Fin 4, v.dout[c] = block[c.val])

/-- R256: the equivalent inverse cipher over the decryption keys of a schedule is the plain inverse cipher over the
schedule itself. -/
def Obligations.PlainInverseCipherAgrees : Prop :=
  ∀ (ek dk : Vector Word 60) (nr : Nat), nr = 10 ∨ nr = 12 ∨ nr = 14 →
    (∀ i : Fin 60, i.val < 4 * (nr + 1) → dk[i] = decKeyWord ek.toList nr i.val) →
    ∀ b : Block, eqInvCipher b dk nr = invCipher b ek nr

/-! ### The machine's step -/

/-- R113: when a command is pending and the engine has the next turn, a step is the completion of the latched word on the
state with that turn taken from the input, that is `exec` of the command that `CMD` decodes to. The block has no program
counter to move (R32). `EngineNext` takes in the empty input, where no turn is listed: that the step is then the
completion is the model's deduction from the fairness of R348 (DEDUCED, notes/assumptions/4.md). -/
def Obligations.StepRunsThePendingCommand : Prop :=
  ∀ (s : State) (i : Instr), s.busy = true → s.EngineNext → decode s.cmd = .command i →
    step s = exec i { s with inputs := s.inputs.tail } ∧ complete s = exec i s

/-- R7: with no command pending the engine's turn changes nothing. That an idle block with no input left stays as it is
is the model's deduction (DEDUCED, notes/assumptions/4.md). -/
def Obligations.IdleEngineDoesNothing : Prop :=
  ∀ s : State, s.busy = false → s.EngineNext → step s = .next { s with inputs := s.inputs.tail }

/-- The register invariant holds at reset. -/
def Obligations.ResetMeetsTheInvariant : Prop := State.reset.Inv ∧ State.reset.ScheduleOk

/-- Every step keeps the register invariant (R36, R37, R44, R79, R340). -/
def Obligations.StepKeepsTheInvariant : Prop :=
  ∀ s t : State, s.Inv → step s = .next t → t.Inv

/-- Every step keeps the loaded schedule a key schedule: `EK` the expansion of its own first words, `DK` the decryption
keys of `EK` (R38, R174, R176, R178). -/
def Obligations.StepKeepsTheSchedule : Prop :=
  ∀ s t : State, s.ScheduleOk → step s = .next t → t.ScheduleOk

/-- R309: no error is fatal. Every step of every state goes on, and so does every command: it is neither a fault nor a
refusal. -/
def Obligations.NoStepStops : Prop := ∀ s : State, s.GoesOn ∧ ∀ i : Instr, ∃ t, exec i s = .next t

/-- R33, R34, R37, R38 and R178 over every step: the schedule changes only when reset is driven or when the engine
completes an INIT whose lengths are right, at its turn or with no input left (notes/assumptions/4.md). -/
def Obligations.OnlyInitOrResetChangesTheSchedule : Prop :=
  ∀ s t : State, step s = .next t → (t.ek ≠ s.ek ∨ t.dk ≠ s.dk ∨ t.nr ≠ s.nr ∨ t.keyv ≠ s.keyv) →
    (∃ b rest, s.inputs = .resetLine b :: rest) ∨
    (s.busy = true ∧ s.EngineNext ∧ t.keyv = true ∧
      ∃ klen, (klen = 16 ∨ klen = 24 ∨ klen = 32) ∧ decode s.cmd = .command (.init klen klen))

/-- R40 over every step: `DOUT` changes only when reset is driven or when the engine completes an ENC or DEC of 16 bytes
under a loaded schedule, at its turn or with no input left (notes/assumptions/4.md). -/
def Obligations.OnlyBlockCommandsOrResetChangeDout : Prop :=
  ∀ s t : State, step s = .next t → t.dout ≠ s.dout →
    (∃ b rest, s.inputs = .resetLine b :: rest) ∨
    (s.busy = true ∧ s.EngineNext ∧ s.keyv = true ∧
      (decode s.cmd = .command (.enc 16) ∨ decode s.cmd = .command (.dec 16)))

/-- R39 over every step: `DIN` changes only when reset is driven or by a host write of one of its registers while `BUSY`
is 0, which stores that one register. No command writes it. -/
def Obligations.OnlyHostWritesOrResetChangeDin : Prop :=
  ∀ s t : State, step s = .next t → t.din ≠ s.din →
    (∃ b rest, s.inputs = .resetLine b :: rest) ∨
    (s.busy = false ∧ s.inReset = false ∧
      ∃ (k : Fin 8) (v : Word) (rest : List Input), s.inputs = wr (.din k) v :: rest ∧ t.din = s.din.set k v)

/-- R43, R44, R45 and R46 over every step: `BUSY`, `DONE`, `ERR` and `CMD` change only when reset is driven, at the
acceptance of a command, and at a completion, at the engine's turn or with no input left (notes/assumptions/4.md). -/
def Obligations.FlagsChangeOnlyAtAcceptanceCompletionReset : Prop :=
  ∀ s t : State, step s = .next t → (t.busy ≠ s.busy ∨ t.done ≠ s.done ∨ t.err ≠ s.err ∨ t.cmd ≠ s.cmd) →
    (∃ b rest, s.inputs = .resetLine b :: rest) ∨
    (s.busy = false ∧ ∃ v rest, s.inputs = wr .cmd v :: rest ∧
      t.cmd = v ∧ t.busy = true ∧ t.done = false ∧ t.err = .ok) ∨
    (s.busy = true ∧ s.EngineNext ∧ t.busy = false ∧ t.done = true ∧ t.cmd = s.cmd)

/-- R348 with R79 and R80: any number of host accesses may come between a command's acceptance and its completion. Until
then `CMD` and `DIN` are frozen, `STATUS` shows the command pending, and nothing of its results is written; the step
after the last of them is the completion. -/
def Obligations.LatencyIsAnyNumberOfAccesses : Prop :=
  ∀ (s : State) (v : Word) (accesses : List Access) (rest : List Input),
    s.busy = false → s.inReset = false →
    s.inputs = wr .cmd v :: (accesses.map .access ++ .engineTurn :: rest) →
    ∃ t, Host.Core.run Sys2Proof.core (accesses.length + 1) s = .next t ∧
      t.cmd = v ∧ t.din = s.din ∧ t.busy = true ∧ t.done = false ∧ t.err = .ok ∧
      t.ek = s.ek ∧ t.dk = s.dk ∧ t.nr = s.nr ∧ t.keyv = s.keyv ∧ t.dout = s.dout ∧
      t.responses.length = s.responses.length + accesses.length + 1 ∧ t.inputs = .engineTurn :: rest ∧
      step t = complete { t with inputs := rest }

/-- The fairness of R348: a pending command completes after finitely many steps unless a reset intervenes; it then shows
the result of R306. R348 gives no bound. The bound of one step past the input still to come is the model's deduction: with
no engine's turn left in the input, the step after the last input is the completion (DEDUCED, notes/assumptions/4.md,
unsafe for claims that a command completes). -/
def Obligations.PendingCommandCompletes : Prop :=
  ∀ s : State, s.busy = true → (∀ b, Input.resetLine b ∉ s.inputs) →
    ∃ n t, n ≤ s.inputs.length + 1 ∧ Host.Core.run Sys2Proof.core n s = .next t ∧
      t.busy = false ∧ t.done = true ∧ t.cmd = s.cmd ∧ t.err = commandResult (decode s.cmd) s.keyv

/-! ### The register window -/

/-- R71: which register every offset of the window names, and what a read of it returns. -/
def Obligations.RegisterMap : Prop :=
  (∀ s : State,
    (regAt 0x00).map s.readReg = some s.cmd ∧ (regAt 0x04).map s.readReg = some s.status ∧
    (regAt 0x08).map s.readReg = some 0 ∧ (regAt 0x0C).map s.readReg = some 0 ∧
    (∀ k : Fin 8, (regAt (BitVec.ofNat 6 (0x10 + 4 * k.val))).map s.readReg = some s.din[k]) ∧
    (∀ k : Fin 4, (regAt (BitVec.ofNat 6 (0x30 + 4 * k.val))).map s.readReg = some s.dout[k])) ∧
  (∀ off : Offset, regAt off = none ↔ off.toNat % 4 ≠ 0) ∧
  (∀ (off : Offset) (r : Reg), regAt off = some r ↔ r.offset = off)

/-- R70: `BASE` is a multiple of 64, and the platform addresses from `BASE` on reach the 64 offsets of the window, and no
other address reaches one. -/
def Obligations.WindowPlacement : Prop :=
  Config.base % 64 = 0 ∧
  (∀ off : Offset, Config.windowOffset (Config.platformAddress off) = some off) ∧
  (∀ (addr : Nat) (off : Offset), Config.windowOffset addr = some off → addr = Config.platformAddress off) ∧
  (∀ addr : Nat, (addr < Config.base ∨ Config.base + 64 ≤ addr) → Config.windowOffset addr = none)

/-- R42: every field of `STATUS`, its legal values, its value at reset, and that it is read-only. -/
def Obligations.StatusFields : Prop :=
  (∀ s : State,
    s.status.getLsbD 0 = s.busy ∧ s.status.getLsbD 1 = s.done ∧ s.status.getLsbD 2 = s.keyv ∧
    s.status.getLsbD 3 = false ∧ s.status.extractLsb' 4 4 = s.err.code ∧ s.status.extractLsb' 8 4 = s.nr ∧
    s.status.extractLsb' 12 20 = 0 ∧ s.err.code.toNat ≤ 5 ∧ ∀ v, s.writeReg v .status = s) ∧
  (∀ s : State, s.Inv → s.nr = 0 ∨ s.nr = 10 ∨ s.nr = 12 ∨ s.nr = 14) ∧
  State.reset.status = 0x00000000

/-- R73: an access of another width than 32 bits or at an offset that is not a multiple of 4 changes no state of the
block, returns 0 where it is a read, and is answered with an error. -/
def Obligations.BadAccessIsAnError : Prop :=
  ∀ (s : State) (width : Width) (off : Offset) (v : Word) (rest : List Input),
    s.inReset = false → width ≠ .w32 ∨ off.toNat % 4 ≠ 0 →
    (s.inputs = .access (.read width off) :: rest →
      step s = .next { s with inputs := rest, responses := .readData 0 true :: s.responses }) ∧
    (s.inputs = .access (.write width off v) :: rest →
      step s = .next { s with inputs := rest, responses := .writeDone true :: s.responses })

/-- R72 and R78 for reads: an aligned 32-bit read returns the register, without an error, and changes nothing. -/
def Obligations.ReadReturnsTheRegister : Prop :=
  ∀ (s : State) (r : Reg) (rest : List Input), s.inReset = false → s.inputs = rd r :: rest →
    step s = .next { s with inputs := rest, responses := .readData (s.readReg r) false :: s.responses }

/-- R74 and R75: a write to a reserved offset, to `STATUS` or to `DOUT` is ignored and is not an error, and a reserved
offset reads as zero. -/
def Obligations.ReservedAndReadOnlyRegisters : Prop :=
  ∀ (s : State) (r : Reg) (v : Word) (rest : List Input), s.inReset = false →
    (r = .status ∨ (∃ k, r = .reserved k) ∨ ∃ k, r = .dout k) →
    (s.inputs = wr r v :: rest →
      step s = .next { s with inputs := rest, responses := .writeDone false :: s.responses }) ∧
    ((∃ k, r = .reserved k) → s.inputs = rd r :: rest →
      step s = .next { s with inputs := rest, responses := .readData 0 false :: s.responses })

/-- R78: a write of any word to `CMD` while `BUSY` is 0 is accepted, legal or not, and a write to `DIN[k]` then stores
all 32 bits; neither does anything else. -/
def Obligations.IdleWritesTakeEffect : Prop :=
  ∀ (s : State) (v : Word) (rest : List Input), s.inReset = false → s.busy = false →
    (s.inputs = wr .cmd v :: rest →
      step s = .next { s with
        cmd := v, busy := true, done := false, err := .ok, inputs := rest
        responses := .writeDone false :: s.responses }) ∧
    (∀ k : Fin 8, s.inputs = wr (.din k) v :: rest →
      step s = .next { s with
        din := s.din.set k v, inputs := rest, responses := .writeDone false :: s.responses })

/-- R79: while `BUSY` is 1 a write to `CMD` or `DIN` is dropped without an error, and reads return the latched command,
the frozen input, the previous result, and a `STATUS` of `BUSY` 1, `DONE` 0, `ERR` 0 with `KEYV` and `NR` as they
are. -/
def Obligations.BusyWritesAreDropped : Prop :=
  ∀ (s : State) (v : Word) (rest : List Input), s.Inv → s.busy = true →
    (∀ r : Reg, (r = .cmd ∨ ∃ k, r = .din k) → s.inputs = wr r v :: rest →
      step s = .next { s with inputs := rest, responses := .writeDone false :: s.responses }) ∧
    (∀ r : Reg, s.inputs = rd r :: rest →
      ∃ x, step s = .next { s with inputs := rest, responses := .readData x false :: s.responses } ∧
        (r = .cmd → x = s.cmd) ∧ (∀ k, r = .din k → x = s.din[k]) ∧ (∀ k, r = .dout k → x = s.dout[k]) ∧
        (r = .status → x = (s.nr ++ (0 : BitVec 5) ++ BitVec.ofBool s.keyv ++ (0b01 : BitVec 2)).setWidth 32))

/-! ### Reset -/

/-- R48 and R340 at the start of a run: every register that R48 gives a value holds it, reset is released, and `STATUS`
reads 0. -/
def Obligations.ResetState : Prop :=
  State.reset.AtReset ∧ State.reset.inReset = false ∧ State.reset.status = 0x00000000

/-- R340: asserting the reset input, and releasing it while it is asserted, puts every register to its value of R48 and
abandons a pending command, from any state. That a release while it is not asserted changes nothing is the model's
deduction (DEDUCED, notes/assumptions/15.md). -/
def Obligations.ResetInputPutsResetValues : Prop :=
  ∀ (s : State) (asserted : Bool) (rest : List Input), s.inputs = .resetLine asserted :: rest →
    (asserted = true ∨ s.inReset = true →
      ∃ t, step s = .next t ∧ t.AtReset ∧ t.status = 0 ∧ t.inReset = asserted ∧ t.inputs = rest ∧
        t.responses = s.responses) ∧
    (asserted = false → s.inReset = false → step s = .next { s with inputs := rest })

/-- R340: while reset is asserted a host access has no effect, and a read returns 0. That the access is answered, and that
the answer's error line is left open, is the model's choice (DESIGN CHOICE, notes/assumptions/8.md). -/
def Obligations.AccessesAreLostDuringReset : Prop :=
  ∀ (s : State) (a : Access) (rest : List Input), s.inReset = true → s.inputs = .access a :: rest →
    ∃ (t : State) (error : Bool), step s = .next t ∧
      t.ek = s.ek ∧ t.dk = s.dk ∧ t.nr = s.nr ∧ t.keyv = s.keyv ∧ t.din = s.din ∧ t.dout = s.dout ∧
      t.cmd = s.cmd ∧ t.busy = s.busy ∧ t.done = s.done ∧ t.err = s.err ∧ t.inReset = true ∧ t.inputs = rest ∧
      t.responses = (match a with | .read _ _ => .readData 0 error | .write _ _ _ => .writeDone error) :: s.responses
end

