-- ==== Sys2Proof/Laws/Encoding.lean ====
section
/-! SUPPORT. The fields of a command word, by value and after packing (R100). -/

namespace Sys2Proof

theorem opField_toNat (v : Word) : (opField v).toNat = v.toNat % 16 := by
  simp [opField, BitVec.extractLsb'_toNat]

theorem rsv0Field_toNat (v : Word) : (rsv0Field v).toNat = v.toNat / 16 % 16 := by
  simp [rsv0Field, BitVec.extractLsb'_toNat, Nat.shiftRight_eq_div_pow]

theorem klenField_toNat (v : Word) : (klenField v).toNat = v.toNat / 256 % 256 := by
  simp [klenField, BitVec.extractLsb'_toNat, Nat.shiftRight_eq_div_pow]

theorem dlenField_toNat (v : Word) : (dlenField v).toNat = v.toNat / 65536 % 256 := by
  simp [dlenField, BitVec.extractLsb'_toNat, Nat.shiftRight_eq_div_pow]

theorem rsv1Field_toNat (v : Word) : (rsv1Field v).toNat = v.toNat / 16777216 := by
  have h := v.isLt
  simp only [rsv1Field, BitVec.extractLsb'_toNat, Nat.shiftRight_eq_div_pow]
  omega

/-- The value of a packed command word, field by field. -/
theorem commandWord_toNat (op : BitVec 4) (klen dlen : Nat) (hk : klen ≤ 255) (hd : dlen ≤ 255) :
    (commandWord op klen dlen).toNat = dlen * 65536 + klen * 256 + op.toNat := by
  have ho := op.isLt
  unfold commandWord
  simp only [BitVec.toNat_append, BitVec.toNat_ofNat]
  rw [← Nat.shiftLeft_add_eq_or_of_lt ho, ← Nat.shiftLeft_add_eq_or_of_lt (by decide),
    ← Nat.shiftLeft_add_eq_or_of_lt (Nat.mod_lt klen (by decide)),
    ← Nat.shiftLeft_add_eq_or_of_lt (Nat.mod_lt dlen (by decide))]
  simp only [Nat.shiftLeft_eq]
  have h0 : BitVec.toNat (0 : BitVec 8) = 0 := rfl
  have h1 : BitVec.toNat (0 : BitVec 4) = 0 := rfl
  omega

end Sys2Proof
end

