-- ==== Sys2Proof/Laws/State.lean ====
section
/-! SUPPORT. What each update of the state does to each field: one lemma per field per update, true by rfl, so that no
later proof unfolds a record update. -/

namespace Sys2Proof.Machine

section
variable (s : State) (e : ErrCode)
@[simp] theorem State.raise_ek : (s.raise e).ek = s.ek := rfl
@[simp] theorem State.raise_dk : (s.raise e).dk = s.dk := rfl
@[simp] theorem State.raise_nr : (s.raise e).nr = s.nr := rfl
@[simp] theorem State.raise_keyv : (s.raise e).keyv = s.keyv := rfl
@[simp] theorem State.raise_din : (s.raise e).din = s.din := rfl
@[simp] theorem State.raise_dout : (s.raise e).dout = s.dout := rfl
@[simp] theorem State.raise_cmd : (s.raise e).cmd = s.cmd := rfl
@[simp] theorem State.raise_busy : (s.raise e).busy = false := rfl
@[simp] theorem State.raise_done : (s.raise e).done = true := rfl
@[simp] theorem State.raise_err : (s.raise e).err = e := rfl
@[simp] theorem State.raise_inReset : (s.raise e).inReset = s.inReset := rfl
@[simp] theorem State.raise_inputs : (s.raise e).inputs = s.inputs := rfl
@[simp] theorem State.raise_responses : (s.raise e).responses = s.responses := rfl
@[simp] theorem State.raise_freeCtr : (s.raise e).freeCtr = s.freeCtr := rfl
end

section
variable (s : State)
@[simp] theorem State.finish_ek : (s.finish).ek = s.ek := rfl
@[simp] theorem State.finish_dk : (s.finish).dk = s.dk := rfl
@[simp] theorem State.finish_nr : (s.finish).nr = s.nr := rfl
@[simp] theorem State.finish_keyv : (s.finish).keyv = s.keyv := rfl
@[simp] theorem State.finish_din : (s.finish).din = s.din := rfl
@[simp] theorem State.finish_dout : (s.finish).dout = s.dout := rfl
@[simp] theorem State.finish_cmd : (s.finish).cmd = s.cmd := rfl
@[simp] theorem State.finish_busy : (s.finish).busy = false := rfl
@[simp] theorem State.finish_done : (s.finish).done = true := rfl
@[simp] theorem State.finish_err : (s.finish).err = .ok := rfl
@[simp] theorem State.finish_inReset : (s.finish).inReset = s.inReset := rfl
@[simp] theorem State.finish_inputs : (s.finish).inputs = s.inputs := rfl
@[simp] theorem State.finish_responses : (s.finish).responses = s.responses := rfl
@[simp] theorem State.finish_freeCtr : (s.finish).freeCtr = s.freeCtr := rfl
end

section
variable (s : State) (v : Word)
@[simp] theorem State.accept_ek : (s.accept v).ek = s.ek := rfl
@[simp] theorem State.accept_dk : (s.accept v).dk = s.dk := rfl
@[simp] theorem State.accept_nr : (s.accept v).nr = s.nr := rfl
@[simp] theorem State.accept_keyv : (s.accept v).keyv = s.keyv := rfl
@[simp] theorem State.accept_din : (s.accept v).din = s.din := rfl
@[simp] theorem State.accept_dout : (s.accept v).dout = s.dout := rfl
@[simp] theorem State.accept_cmd : (s.accept v).cmd = v := rfl
@[simp] theorem State.accept_busy : (s.accept v).busy = true := rfl
@[simp] theorem State.accept_done : (s.accept v).done = false := rfl
@[simp] theorem State.accept_err : (s.accept v).err = .ok := rfl
@[simp] theorem State.accept_inReset : (s.accept v).inReset = s.inReset := rfl
@[simp] theorem State.accept_inputs : (s.accept v).inputs = s.inputs := rfl
@[simp] theorem State.accept_responses : (s.accept v).responses = s.responses := rfl
@[simp] theorem State.accept_freeCtr : (s.accept v).freeCtr = s.freeCtr := rfl
end

section
variable (s : State) (out : Block)
@[simp] theorem State.writeDout_ek : (s.writeDout out).ek = s.ek := rfl
@[simp] theorem State.writeDout_dk : (s.writeDout out).dk = s.dk := rfl
@[simp] theorem State.writeDout_nr : (s.writeDout out).nr = s.nr := rfl
@[simp] theorem State.writeDout_keyv : (s.writeDout out).keyv = s.keyv := rfl
@[simp] theorem State.writeDout_din : (s.writeDout out).din = s.din := rfl
@[simp] theorem State.writeDout_dout : (s.writeDout out).dout = out.words := rfl
@[simp] theorem State.writeDout_cmd : (s.writeDout out).cmd = s.cmd := rfl
@[simp] theorem State.writeDout_busy : (s.writeDout out).busy = s.busy := rfl
@[simp] theorem State.writeDout_done : (s.writeDout out).done = s.done := rfl
@[simp] theorem State.writeDout_err : (s.writeDout out).err = s.err := rfl
@[simp] theorem State.writeDout_inReset : (s.writeDout out).inReset = s.inReset := rfl
@[simp] theorem State.writeDout_inputs : (s.writeDout out).inputs = s.inputs := rfl
@[simp] theorem State.writeDout_responses : (s.writeDout out).responses = s.responses := rfl
@[simp] theorem State.writeDout_freeCtr : (s.writeDout out).freeCtr = s.freeCtr := rfl
end

section
variable (s : State)
@[simp] theorem State.writeFreeDout_ek : (s.writeFreeDout).ek = s.ek := rfl
@[simp] theorem State.writeFreeDout_dk : (s.writeFreeDout).dk = s.dk := rfl
@[simp] theorem State.writeFreeDout_nr : (s.writeFreeDout).nr = s.nr := rfl
@[simp] theorem State.writeFreeDout_keyv : (s.writeFreeDout).keyv = s.keyv := rfl
@[simp] theorem State.writeFreeDout_din : (s.writeFreeDout).din = s.din := rfl
@[simp] theorem State.writeFreeDout_dout : (s.writeFreeDout).dout = Config.freeDout s.freeCtr := rfl
@[simp] theorem State.writeFreeDout_cmd : (s.writeFreeDout).cmd = s.cmd := rfl
@[simp] theorem State.writeFreeDout_busy : (s.writeFreeDout).busy = s.busy := rfl
@[simp] theorem State.writeFreeDout_done : (s.writeFreeDout).done = s.done := rfl
@[simp] theorem State.writeFreeDout_err : (s.writeFreeDout).err = s.err := rfl
@[simp] theorem State.writeFreeDout_inReset : (s.writeFreeDout).inReset = s.inReset := rfl
@[simp] theorem State.writeFreeDout_inputs : (s.writeFreeDout).inputs = s.inputs := rfl
@[simp] theorem State.writeFreeDout_responses : (s.writeFreeDout).responses = s.responses := rfl
@[simp] theorem State.writeFreeDout_freeCtr : (s.writeFreeDout).freeCtr = s.freeCtr + 1 := rfl
end

section
variable (s : State) (w d : List Word) (n : Nat)
@[simp] theorem State.loadSchedule_ek : (s.loadSchedule w d n).ek = fileOf w (Config.freeEk s.freeCtr) := by dsimp only [State.loadSchedule]
@[simp] theorem State.loadSchedule_dk : (s.loadSchedule w d n).dk = fileOf d (Config.freeDk s.freeCtr) := by dsimp only [State.loadSchedule]
@[simp] theorem State.loadSchedule_nr : (s.loadSchedule w d n).nr = BitVec.ofNat 4 n := by dsimp only [State.loadSchedule]
@[simp] theorem State.loadSchedule_keyv : (s.loadSchedule w d n).keyv = true := by dsimp only [State.loadSchedule]
@[simp] theorem State.loadSchedule_din : (s.loadSchedule w d n).din = s.din := by dsimp only [State.loadSchedule]
@[simp] theorem State.loadSchedule_dout : (s.loadSchedule w d n).dout = s.dout := by dsimp only [State.loadSchedule]
@[simp] theorem State.loadSchedule_cmd : (s.loadSchedule w d n).cmd = s.cmd := by dsimp only [State.loadSchedule]
@[simp] theorem State.loadSchedule_busy : (s.loadSchedule w d n).busy = s.busy := by dsimp only [State.loadSchedule]
@[simp] theorem State.loadSchedule_done : (s.loadSchedule w d n).done = s.done := by dsimp only [State.loadSchedule]
@[simp] theorem State.loadSchedule_err : (s.loadSchedule w d n).err = s.err := by dsimp only [State.loadSchedule]
@[simp] theorem State.loadSchedule_inReset : (s.loadSchedule w d n).inReset = s.inReset := by dsimp only [State.loadSchedule]
@[simp] theorem State.loadSchedule_inputs : (s.loadSchedule w d n).inputs = s.inputs := by dsimp only [State.loadSchedule]
@[simp] theorem State.loadSchedule_responses : (s.loadSchedule w d n).responses = s.responses := by dsimp only [State.loadSchedule]
@[simp] theorem State.loadSchedule_freeCtr : (s.loadSchedule w d n).freeCtr = s.freeCtr + 1 := by dsimp only [State.loadSchedule]
end

section
variable (s : State) (r : Response)
@[simp] theorem State.respond_ek : (s.respond r).ek = s.ek := rfl
@[simp] theorem State.respond_dk : (s.respond r).dk = s.dk := rfl
@[simp] theorem State.respond_nr : (s.respond r).nr = s.nr := rfl
@[simp] theorem State.respond_keyv : (s.respond r).keyv = s.keyv := rfl
@[simp] theorem State.respond_din : (s.respond r).din = s.din := rfl
@[simp] theorem State.respond_dout : (s.respond r).dout = s.dout := rfl
@[simp] theorem State.respond_cmd : (s.respond r).cmd = s.cmd := rfl
@[simp] theorem State.respond_busy : (s.respond r).busy = s.busy := rfl
@[simp] theorem State.respond_done : (s.respond r).done = s.done := rfl
@[simp] theorem State.respond_err : (s.respond r).err = s.err := rfl
@[simp] theorem State.respond_inReset : (s.respond r).inReset = s.inReset := rfl
@[simp] theorem State.respond_inputs : (s.respond r).inputs = s.inputs := rfl
@[simp] theorem State.respond_responses : (s.respond r).responses = r :: s.responses := rfl
@[simp] theorem State.respond_freeCtr : (s.respond r).freeCtr = s.freeCtr := rfl
end

section
variable (s : State)
@[simp] theorem State.resetRegisters_ek : (s.resetRegisters).ek = fileOf [] (Config.freeEk s.freeCtr) := by dsimp only [State.resetRegisters]
@[simp] theorem State.resetRegisters_dk : (s.resetRegisters).dk = fileOf [] (Config.freeDk s.freeCtr) := by dsimp only [State.resetRegisters]
@[simp] theorem State.resetRegisters_nr : (s.resetRegisters).nr = 0 := by dsimp only [State.resetRegisters]
@[simp] theorem State.resetRegisters_keyv : (s.resetRegisters).keyv = false := by dsimp only [State.resetRegisters]
@[simp] theorem State.resetRegisters_din : (s.resetRegisters).din = Vector.replicate 8 0 := by dsimp only [State.resetRegisters]
@[simp] theorem State.resetRegisters_dout : (s.resetRegisters).dout = Vector.replicate 4 0 := by dsimp only [State.resetRegisters]
@[simp] theorem State.resetRegisters_cmd : (s.resetRegisters).cmd = 0 := by dsimp only [State.resetRegisters]
@[simp] theorem State.resetRegisters_busy : (s.resetRegisters).busy = false := by dsimp only [State.resetRegisters]
@[simp] theorem State.resetRegisters_done : (s.resetRegisters).done = false := by dsimp only [State.resetRegisters]
@[simp] theorem State.resetRegisters_err : (s.resetRegisters).err = .ok := by dsimp only [State.resetRegisters]
@[simp] theorem State.resetRegisters_inReset : (s.resetRegisters).inReset = s.inReset := by dsimp only [State.resetRegisters]
@[simp] theorem State.resetRegisters_inputs : (s.resetRegisters).inputs = s.inputs := by dsimp only [State.resetRegisters]
@[simp] theorem State.resetRegisters_responses : (s.resetRegisters).responses = s.responses := by dsimp only [State.resetRegisters]
@[simp] theorem State.resetRegisters_freeCtr : (s.resetRegisters).freeCtr = s.freeCtr + 1 := by dsimp only [State.resetRegisters]
end

section
variable (s : State) (v : Word)
@[simp] theorem State.placeCommand_ek : (s.placeCommand v).ek = s.ek := rfl
@[simp] theorem State.placeCommand_dk : (s.placeCommand v).dk = s.dk := rfl
@[simp] theorem State.placeCommand_nr : (s.placeCommand v).nr = s.nr := rfl
@[simp] theorem State.placeCommand_keyv : (s.placeCommand v).keyv = s.keyv := rfl
@[simp] theorem State.placeCommand_din : (s.placeCommand v).din = s.din := rfl
@[simp] theorem State.placeCommand_dout : (s.placeCommand v).dout = s.dout := rfl
@[simp] theorem State.placeCommand_cmd : (s.placeCommand v).cmd = v := rfl
@[simp] theorem State.placeCommand_busy : (s.placeCommand v).busy = true := rfl
@[simp] theorem State.placeCommand_done : (s.placeCommand v).done = false := rfl
@[simp] theorem State.placeCommand_err : (s.placeCommand v).err = .ok := rfl
@[simp] theorem State.placeCommand_inReset : (s.placeCommand v).inReset = false := rfl
@[simp] theorem State.placeCommand_inputs : (s.placeCommand v).inputs = .engineTurn :: s.inputs := rfl
@[simp] theorem State.placeCommand_responses : (s.placeCommand v).responses = s.responses := rfl
@[simp] theorem State.placeCommand_freeCtr : (s.placeCommand v).freeCtr = s.freeCtr := rfl
end

end Sys2Proof.Machine
end

