-- ==== Sys2Proof/Laws/Operands.lean ====
section
/-! SUPPORT. The layout of operands: what every function of Machine/Operands.lean does, said once. -/

namespace Sys2Proof.Machine

theorem byte_ext {a b : Byte} (h : ∀ i, i < 8 → a.getLsbD i = b.getLsbD i) : a = b :=
  BitVec.eq_of_getLsbD_eq h

/-- A bit of a byte of a word. -/
@[simp] theorem getLsbD_byteOf (k : Fin 4) (w : Word) (i : Nat) :
    (byteOf k w).getLsbD i = (decide (i < 8) && w.getLsbD (24 - 8 * k.val + i)) := by
  simp [byteOf, BitVec.getLsbD_extractLsb']

/-- A bit of a word, by the byte it lies in. -/
theorem getLsbD_word (b0 b1 b2 b3 : Byte) (i : Nat) :
    (word b0 b1 b2 b3).getLsbD i =
      if i < 8 then b3.getLsbD i else if i < 16 then b2.getLsbD (i - 8)
      else if i < 24 then b1.getLsbD (i - 16) else b0.getLsbD (i - 24) := by
  unfold word
  simp only [BitVec.getLsbD_append]
  by_cases h8 : i < 8
  · simp [h8]
  · by_cases h16 : i < 16
    · simp [h8, h16, show i - 8 < 8 by omega]
    · by_cases h24 : i < 24
      · simp [h8, h16, h24, show ¬ (i - 8 < 8) by omega, show i - 8 - 8 = i - 16 by omega, show i - 16 < 8 by omega]
      · simp [h8, h16, h24, show ¬ (i - 8 < 8) by omega, show ¬ (i - 8 - 8 < 8) by omega,
          show i - 8 - 8 - 8 = i - 24 by omega]

/-- The four bytes of a word put together give the word (R138). -/
@[simp] theorem word_byteOf (w : Word) : word (byteOf 0 w) (byteOf 1 w) (byteOf 2 w) (byteOf 3 w) = w := by
  refine BitVec.eq_of_getLsbD_eq fun i hi => ?_
  rw [getLsbD_word]
  simp only [getLsbD_byteOf, Fin.val_zero, Fin.val_one, Fin.val_two, show (3 : Fin 4).val = 3 from rfl]
  split_ifs with h8 h16 h24
  · simp [h8]
  · simp [show i - 8 < 8 by omega, show 24 - 16 + (i - 8) = i by omega]
  · simp [show i - 16 < 8 by omega, show 24 - 8 + (i - 16) = i by omega]
  · simp [show i - 24 < 8 by omega, show 24 + (i - 24) = i by omega]

@[simp] theorem byteOf_word_zero (b0 b1 b2 b3 : Byte) : byteOf 0 (word b0 b1 b2 b3) = b0 := by
  refine byte_ext fun i hi => ?_
  rw [getLsbD_byteOf, getLsbD_word, show (0 : Fin 4).val = 0 from rfl]
  split_ifs <;> first | omega | (rw [decide_eq_true hi, Bool.true_and]; congr 1; omega)

@[simp] theorem byteOf_word_one (b0 b1 b2 b3 : Byte) : byteOf 1 (word b0 b1 b2 b3) = b1 := by
  refine byte_ext fun i hi => ?_
  rw [getLsbD_byteOf, getLsbD_word, show (1 : Fin 4).val = 1 from rfl]
  split_ifs <;> first | omega | (rw [decide_eq_true hi, Bool.true_and]; congr 1; omega)

@[simp] theorem byteOf_word_two (b0 b1 b2 b3 : Byte) : byteOf 2 (word b0 b1 b2 b3) = b2 := by
  refine byte_ext fun i hi => ?_
  rw [getLsbD_byteOf, getLsbD_word, show (2 : Fin 4).val = 2 from rfl]
  split_ifs <;> first | omega | (rw [decide_eq_true hi, Bool.true_and]; congr 1; omega)

@[simp] theorem byteOf_word_three (b0 b1 b2 b3 : Byte) : byteOf 3 (word b0 b1 b2 b3) = b3 := by
  refine byte_ext fun i hi => ?_
  rw [getLsbD_byteOf, getLsbD_word, show (3 : Fin 4).val = 3 from rfl]
  split_ifs <;> first | omega | (rw [decide_eq_true hi, Bool.true_and]; congr 1; omega)

/-- Taking a byte is linear over `^`. -/
theorem byteOf_xor (k : Fin 4) (v w : Word) : byteOf k (v ^^^ w) = byteOf k v ^^^ byteOf k w := by
  refine byte_ext fun i hi => ?_
  rw [BitVec.getLsbD_xor, getLsbD_byteOf, getLsbD_byteOf, getLsbD_byteOf, BitVec.getLsbD_xor, decide_eq_true hi]
  rfl

/-- Two words with the same bytes are equal. -/
theorem word_ext {v w : Word} (h : ∀ k, byteOf k v = byteOf k w) : v = w := by
  rw [← word_byteOf v, ← word_byteOf w, h 0, h 1, h 2, h 3]

/-- Reading what `Block.of` laid out (R139). -/
@[simp] theorem Block.get_of (f : Fin 4 → Fin 4 → Byte) (r c : Fin 4) : (Block.of f).get r c = f r c := by
  unfold Block.get Block.of
  rw [Vector.getElem_ofFn]
  congr 1 <;> (apply Fin.ext; simp only []; omega)

/-- Two states with the same bytes are equal. -/
theorem Block.ext_get {s t : Block} (h : ∀ r c : Fin 4, s.get r c = t.get r c) : s = t := by
  apply Vector.ext
  intro i hi
  have := h ⟨i % 4, by omega⟩ ⟨i / 4, by omega⟩
  simpa only [Block.get, Nat.mod_add_div] using this

@[simp] theorem Block.of_get (s : Block) : Block.of (fun r c => s.get r c) = s :=
  Block.ext_get fun r c => by simp

/-- The bytes of a column word (R139). -/
@[simp] theorem byteOf_column (s : Block) (r c : Fin 4) : byteOf r (s.column c) = s.get r c := by
  unfold Block.column
  match r with
  | 0 => exact byteOf_word_zero ..
  | 1 => exact byteOf_word_one ..
  | 2 => exact byteOf_word_two ..
  | 3 => exact byteOf_word_three ..

/-- The words that ENC and DEC write are the columns (R139). -/
@[simp] theorem getElem_words (s : Block) (i : Nat) (hi : i < 4) : s.words[i] = s.column ⟨i, hi⟩ := by
  unfold Block.words
  rw [Vector.getElem_ofFn]

/-- Column `c` of the input state is `DIN[c]`: byte `r` of it is the input byte in row `r` (R139). -/
@[simp] theorem get_inputBlock (din : Vector Word 8) (r c : Fin 4) :
    (inputBlock din).get r c = byteOf r din[c.val] := by
  unfold inputBlock dinByte
  simp only [Block.get_of]
  congr 1
  · apply Fin.ext; simp only []; omega
  · congr 1; omega

/-- Word `i` of a file, within it. -/
theorem fileWord_of_lt (file : Vector Word 60) (i : Nat) (hi : i < 60) : fileWord file i = file[i] := by
  unfold fileWord
  simp [hi]

/-- Word `i` of a file made from a list. -/
theorem getElem_fileOf (words : List Word) (free : Nat → Word) (i : Nat) (hi : i < 60) :
    (fileOf words free)[i] = if i < words.length then words.getD i 0 else free i := by
  unfold fileOf
  rw [Vector.getElem_ofFn]

/-- A round key, word by word (R33, R34). -/
theorem getElem_roundKey (file : Vector Word 60) (r c : Nat) (hc : c < 4) :
    (roundKey file r)[c] = fileWord file (4 * r + c) := by
  unfold roundKey
  rw [Vector.getElem_ofFn]

/-- Round keys agree where the files' words do. -/
theorem roundKey_congr {f g : Vector Word 60} {r n : Nat} (hr : r ≤ n)
    (h : ∀ i, i < 4 * (n + 1) → fileWord f i = fileWord g i) : roundKey f r = roundKey g r := by
  apply Vector.ext
  intro c hc
  rw [getElem_roundKey f r c hc, getElem_roundKey g r c hc]
  exact h _ (by omega)

end Sys2Proof.Machine
end

