-- ==== Sys2Proof/Laws/Field.lean ====
section
/-! SUPPORT. Linearity of the field's operations over `^` (R131), and how to use it: two linear functions on bytes that agree
on the eight powers of x are equal. -/

namespace Sys2Proof.Machine

theorem byte_xor_left_comm (a b c : Byte) : a ^^^ (b ^^^ c) = b ^^^ (a ^^^ c) := by
  rw [← BitVec.xor_assoc, BitVec.xor_comm a b, BitVec.xor_assoc]

theorem byte_xor_cancel (a b : Byte) : a ^^^ (a ^^^ b) = b := by
  rw [← BitVec.xor_assoc, BitVec.xor_self, BitVec.zero_xor]

/-- `xtime` is linear over `^`. -/
theorem xtime_xor (a b : Byte) : xtime (a ^^^ b) = xtime a ^^^ xtime b := by
  unfold xtime
  rw [BitVec.getLsbD_xor, BitVec.shiftLeft_xor_distrib]
  cases a.getLsbD 7 <;> cases b.getLsbD 7 <;> simp [BitVec.xor_assoc, BitVec.xor_comm, byte_xor_left_comm]

theorem gmulLoop_xor_right (n : Nat) (a b c p q : Byte) :
    gmulLoop n a (b ^^^ c) (p ^^^ q) = gmulLoop n a b p ^^^ gmulLoop n a c q := by
  induction n generalizing a b c p q with
  | zero => rfl
  | succ n ih =>
    simp only [gmulLoop, BitVec.getLsbD_xor, BitVec.ushiftRight_xor_distrib]
    rw [← ih]
    congr 1
    cases b.getLsbD 0 <;> cases c.getLsbD 0 <;> simp [BitVec.xor_assoc, BitVec.xor_comm, byte_xor_left_comm]

theorem gmulLoop_xor_left (n : Nat) (a b c p q : Byte) :
    gmulLoop n (a ^^^ b) c (p ^^^ q) = gmulLoop n a c p ^^^ gmulLoop n b c q := by
  induction n generalizing a b c p q with
  | zero => rfl
  | succ n ih =>
    simp only [gmulLoop, xtime_xor]
    rw [← ih]
    congr 1
    cases c.getLsbD 0 <;> simp [BitVec.xor_assoc, BitVec.xor_comm, byte_xor_left_comm]

/-- `•` distributes over `^` on the right (R131). -/
theorem gmul_xor_right (a b c : Byte) : gmul a (b ^^^ c) = gmul a b ^^^ gmul a c := by
  simpa [gmul] using gmulLoop_xor_right 8 a b c 0 0

/-- `•` distributes over `^` on the left (R131). -/
theorem gmul_xor_left (a b c : Byte) : gmul (a ^^^ b) c = gmul a c ^^^ gmul b c := by
  simpa [gmul] using gmulLoop_xor_left 8 a b c 0 0

/-- Two functions that are linear over `^` and agree on the powers of x are equal. -/
theorem linear_ext {f g : Byte → Byte} (hf : ∀ a b, f (a ^^^ b) = f a ^^^ f b) (hg : ∀ a b, g (a ^^^ b) = g a ^^^ g b)
    (h : ∀ i : Fin 8, f (BitVec.twoPow 8 i.val) = g (BitVec.twoPow 8 i.val)) (a : Byte) : f a = g a := by
  have zero {f : Byte → Byte} (hf : ∀ a b, f (a ^^^ b) = f a ^^^ f b) : f 0 = 0 := by
    have := hf 0 0
    rwa [BitVec.xor_self, BitVec.xor_self] at this
  have bit (i : Nat) (hi : i < 8) : f (if a.getLsbD i then BitVec.twoPow 8 i else 0) =
      g (if a.getLsbD i then BitVec.twoPow 8 i else 0) := by
    split
    · exact h ⟨i, hi⟩
    · rw [zero hf, zero hg]
  have split : ∀ a : Byte, a =
      (if a.getLsbD 0 then BitVec.twoPow 8 0 else 0) ^^^ (if a.getLsbD 1 then BitVec.twoPow 8 1 else 0) ^^^
      (if a.getLsbD 2 then BitVec.twoPow 8 2 else 0) ^^^ (if a.getLsbD 3 then BitVec.twoPow 8 3 else 0) ^^^
      (if a.getLsbD 4 then BitVec.twoPow 8 4 else 0) ^^^ (if a.getLsbD 5 then BitVec.twoPow 8 5 else 0) ^^^
      (if a.getLsbD 6 then BitVec.twoPow 8 6 else 0) ^^^ (if a.getLsbD 7 then BitVec.twoPow 8 7 else 0) := by
    decide +kernel
  rw [split a]
  simp only [hf, hg]
  rw [bit 0 (by omega), bit 1 (by omega), bit 2 (by omega), bit 3 (by omega), bit 4 (by omega), bit 5 (by omega),
    bit 6 (by omega), bit 7 (by omega)]

/-- A row of a matrix times a column is linear in the column (R213, R253). -/
theorem mulRow_xor (m : Vector (Vector Byte 4) 4) (a b : Fin 4 → Byte) (r : Fin 4) :
    mulRow m (fun k => a k ^^^ b k) r = mulRow m a r ^^^ mulRow m b r := by
  simp only [mulRow, gmul_xor_right]
  ac_rfl

end Sys2Proof.Machine
end

