-- ==== Sys2Proof/Laws/PerInstr.lean ====
section
/-! SUPPORT. Facts about every command as syntax, one lemma per constructor. -/

namespace Sys2Proof.Laws.ReservedFieldsAreZero

/-- The word of a well-formed command has both reserved fields 0 (R104). -/
def Statement (i : Instr) : Prop :=
  i.wellFormed = true → rsv0Field (encode i) = 0 ∧ rsv1Field (encode i) = 0

theorem of_word {op : BitVec 4} {klen dlen : Nat} (hk : klen ≤ 255) (hd : dlen ≤ 255) :
    rsv0Field (commandWord op klen dlen) = 0 ∧ rsv1Field (commandWord op klen dlen) = 0 := by
  have ho := op.isLt
  have hw := commandWord_toNat op klen dlen hk hd
  constructor <;> apply BitVec.eq_of_toNat_eq
  · rw [rsv0Field_toNat, hw]; show _ = 0; omega
  · rw [rsv1Field_toNat, hw]; show _ = 0; omega

theorem init (klen dlen : Nat) : Statement (.init klen dlen) := by
  intro h
  simp only [Instr.wellFormed, Bool.and_eq_true, decide_eq_true_eq] at h
  exact of_word h.1 h.2

theorem enc (dlen : Nat) : Statement (.enc dlen) := by
  intro h
  simp only [Instr.wellFormed, decide_eq_true_eq] at h
  exact of_word (by omega) h

theorem dec (dlen : Nat) : Statement (.dec dlen) := by
  intro h
  simp only [Instr.wellFormed, decide_eq_true_eq] at h
  exact of_word (by omega) h

end Sys2Proof.Laws.ReservedFieldsAreZero
end

