-- ==== Sys2Proof/Laws/Step.lean ====
section
/-! SUPPORT. What a step can do, said once: host accesses, the three commands, completion, and the step itself. -/

namespace Sys2Proof.Machine

/-- The offset of a register names that register (R71). -/
@[simp] theorem regAt_offset (r : Reg) : regAt r.offset = some r := by
  match r with
  | .cmd => rfl
  | .status => rfl
  | .reserved k => revert k; decide
  | .din k => revert k; decide
  | .dout k => revert k; decide

/-- An aligned 32-bit access at a register's offset selects the register (R72). -/
@[simp] theorem target_offset (r : Reg) : target .w32 r.offset = some r := by simp [target]

/-- An access of another width or at a misaligned offset selects nothing (R73). -/
theorem target_eq_none (width : Width) (off : Offset) :
    target width off = none ↔ width ≠ .w32 ∨ off.toNat % 4 ≠ 0 := by
  unfold target
  by_cases hw : width = .w32
  · simp only [hw, if_true, ne_eq, not_true, false_or]
    revert off
    decide
  · simp [hw]

/-- What a write of a register can do (R72, R74, R75, R78, R79). -/
theorem writeReg_cases (s : State) (v : Word) (r : Reg) :
    s.writeReg v r = s ∨
    (s.busy = false ∧ r = .cmd ∧ s.writeReg v r = s.accept v) ∨
    (s.busy = false ∧ ∃ k, r = .din k ∧ s.writeReg v r = { s with din := s.din.set k v }) := by
  cases r <;> cases hb : s.busy <;> simp [State.writeReg, hb]

/-- A write is dropped while busy (R79). -/
theorem writeReg_of_busy {s : State} (hb : s.busy = true) (v : Word) (r : Reg) : s.writeReg v r = s := by
  cases r <;> simp [State.writeReg, hb]

/-- What a host access can do: it is lost to reset, it only is answered, or it is an effective write. -/
theorem performAccess_cases (s : State) (a : Access) :
    (s.inReset = true ∧ ∃ r, s.performAccess a = ({ s with freeCtr := s.freeCtr + 1 } : State).respond r) ∨
    (s.inReset = false ∧ ∃ r, s.performAccess a = s.respond r) ∨
    (s.inReset = false ∧ s.busy = false ∧ ∃ v off, a = .write .w32 off v ∧ target .w32 off = some .cmd ∧
      s.performAccess a = (s.accept v).respond (.writeDone false)) ∨
    (s.inReset = false ∧ s.busy = false ∧ ∃ v off k, a = .write .w32 off v ∧ target .w32 off = some (.din k) ∧
      s.performAccess a = ({ s with din := s.din.set k v } : State).respond (.writeDone false)) := by
  rcases Bool.eq_false_or_eq_true s.inReset with hr | hr
  · refine .inl ⟨hr, ?_⟩
    cases a <;> simp only [State.performAccess, hr, if_true, State.loseAccess] <;> exact ⟨_, rfl⟩
  · refine .inr ?_
    cases a with
    | read width off =>
      refine .inl ⟨hr, ?_⟩
      simp only [State.performAccess, hr]
      cases target width off <;> exact ⟨_, rfl⟩
    | write width off v =>
      cases ht : target width off with
      | none => exact .inl ⟨hr, .writeDone true, by simp [State.performAccess, hr, ht]⟩
      | some r =>
        have hw : width = .w32 := by
          by_contra hw
          simp [target, hw] at ht
        subst hw
        have hp : s.performAccess (.write .w32 off v) = (s.writeReg v r).respond (.writeDone false) := by
          simp [State.performAccess, hr, ht]
        obtain h | ⟨hb, rfl, h⟩ | ⟨hb, k, rfl, h⟩ := writeReg_cases s v r
        · exact .inl ⟨hr, .writeDone false, by rw [hp, h]⟩
        · exact .inr (.inl ⟨hr, hb, v, off, rfl, ht, by rw [hp, h]⟩)
        · exact .inr (.inr ⟨hr, hb, v, off, k, rfl, ht, by rw [hp, h]⟩)

/-- What INIT does, in every case (R170). -/
theorem execInit_cases (klen dlen : Nat) (s : State) :
    (klen ∉ [16, 24, 32] ∧ execInit klen dlen s = .next (s.raise .invalidKeySize)) ∨
    (klen ∈ [16, 24, 32] ∧ dlen ≠ klen ∧ execInit klen dlen s = .next (s.raise .invalidKeyLength)) ∨
    (klen ∈ [16, 24, 32] ∧ dlen = klen ∧ ∃ w, w = keyExpansion (keyWords (keyBytes s.din klen) (keyWordCount klen))
        (keyWordCount klen) (roundCount klen) ∧
      execInit klen dlen s =
        .next (s.loadSchedule w (decKeys w (roundCount klen)) (roundCount klen)).finish) := by
  by_cases hk : klen ∈ [16, 24, 32]
  · by_cases hd : dlen = klen
    · exact .inr (.inr ⟨hk, hd, _, rfl, by simp only [execInit, hk, hd, not_true, if_false, ne_eq]⟩)
    · exact .inr (.inl ⟨hk, hd, by simp only [execInit, hk, hd, not_true, not_false_iff, if_false, if_true, ne_eq]⟩)
  · exact .inl ⟨hk, by simp only [execInit, hk, not_false_iff, if_true]⟩

/-- What ENC does, in every case (R210). -/
theorem execEnc_cases (dlen : Nat) (s : State) :
    (dlen ≠ 16 ∧ execEnc dlen s = .next (s.raise .invalidBlockSize)) ∨
    (dlen = 16 ∧ s.keyv = false ∧ execEnc dlen s = .next (s.raise .keyNotLoaded)) ∨
    (dlen = 16 ∧ s.keyv = true ∧ ¬ legalRounds s.nr ∧ execEnc dlen s = .next s.writeFreeDout.finish) ∨
    (dlen = 16 ∧ s.keyv = true ∧ legalRounds s.nr ∧
      execEnc dlen s = .next (s.writeDout (cipher (inputBlock s.din) s.ek s.nr.toNat)).finish) := by
  unfold execEnc
  by_cases hd : dlen = 16 <;> cases hk : s.keyv <;> by_cases hn : legalRounds s.nr <;> simp [hd, hn]

/-- What DEC does, in every case (R250). -/
theorem execDec_cases (dlen : Nat) (s : State) :
    (dlen ≠ 16 ∧ execDec dlen s = .next (s.raise .invalidBlockSize)) ∨
    (dlen = 16 ∧ s.keyv = false ∧ execDec dlen s = .next (s.raise .keyNotLoaded)) ∨
    (dlen = 16 ∧ s.keyv = true ∧ ¬ legalRounds s.nr ∧ execDec dlen s = .next s.writeFreeDout.finish) ∨
    (dlen = 16 ∧ s.keyv = true ∧ legalRounds s.nr ∧
      execDec dlen s = .next (s.writeDout (eqInvCipher (inputBlock s.din) s.dk s.nr.toNat)).finish) := by
  unfold execDec
  by_cases hd : dlen = 16 <;> cases hk : s.keyv <;> by_cases hn : legalRounds s.nr <;> simp [hd, hn]

/-- What a completion that goes on can do: raise an error, load a schedule, or write `DOUT` (R113), the latter with a free
value under a round count that R36 excludes. -/
theorem complete_cases {s t : State} (h : complete s = .next t) :
    (∃ e, e ≠ .ok ∧ t = s.raise e) ∨
    (∃ klen w, klen ∈ [16, 24, 32] ∧ decode s.cmd = .command (.init klen klen) ∧
      w = keyExpansion (keyWords (keyBytes s.din klen) (keyWordCount klen)) (keyWordCount klen) (roundCount klen) ∧
      t = (s.loadSchedule w (decKeys w (roundCount klen)) (roundCount klen)).finish) ∨
    (∃ out, s.keyv = true ∧ legalRounds s.nr ∧ t = (s.writeDout out).finish ∧
      (decode s.cmd = .command (.enc 16) ∧ out = cipher (inputBlock s.din) s.ek s.nr.toNat ∨
       decode s.cmd = .command (.dec 16) ∧ out = eqInvCipher (inputBlock s.din) s.dk s.nr.toNat)) ∨
    (s.keyv = true ∧ ¬ legalRounds s.nr ∧ t = s.writeFreeDout.finish ∧
      (decode s.cmd = .command (.enc 16) ∨ decode s.cmd = .command (.dec 16))) := by
  unfold complete at h
  split at h
  · exact .inl ⟨.illegalCommand, by simp, by simpa using h.symm⟩
  · rename_i i hi
    match i with
    | .init klen dlen =>
      obtain ⟨-, he⟩ | ⟨-, -, he⟩ | ⟨hk, rfl, w, hw, he⟩ := execInit_cases klen dlen s
      · exact .inl ⟨.invalidKeySize, by simp, by simpa [exec, he] using h.symm⟩
      · exact .inl ⟨.invalidKeyLength, by simp, by simpa [exec, he] using h.symm⟩
      · exact .inr (.inl ⟨dlen, w, hk, hi, hw, by simpa only [exec, he, Host.Outcome.next.injEq] using h.symm⟩)
    | .enc dlen =>
      obtain ⟨-, he⟩ | ⟨-, -, he⟩ | ⟨rfl, hv, hn, he⟩ | ⟨rfl, hv, hn, he⟩ := execEnc_cases dlen s
      · exact .inl ⟨.invalidBlockSize, by simp, by simpa [exec, he] using h.symm⟩
      · exact .inl ⟨.keyNotLoaded, by simp, by simpa [exec, he] using h.symm⟩
      · exact .inr (.inr (.inr ⟨hv, hn, by simpa only [exec, he, Host.Outcome.next.injEq] using h.symm, .inl hi⟩))
      · exact .inr (.inr (.inl ⟨_, hv, hn, by simpa only [exec, he, Host.Outcome.next.injEq] using h.symm, .inl ⟨hi, rfl⟩⟩))
    | .dec dlen =>
      obtain ⟨-, he⟩ | ⟨-, -, he⟩ | ⟨rfl, hv, hn, he⟩ | ⟨rfl, hv, hn, he⟩ := execDec_cases dlen s
      · exact .inl ⟨.invalidBlockSize, by simp, by simpa [exec, he] using h.symm⟩
      · exact .inl ⟨.keyNotLoaded, by simp, by simpa [exec, he] using h.symm⟩
      · exact .inr (.inr (.inr ⟨hv, hn, by simpa only [exec, he, Host.Outcome.next.injEq] using h.symm, .inr hi⟩))
      · exact .inr (.inr (.inl ⟨_, hv, hn, by simpa only [exec, he, Host.Outcome.next.injEq] using h.symm, .inr ⟨hi, rfl⟩⟩))

/-- What a step that goes on can do (R7, R81, R340). -/
theorem step_cases {s t : State} (h : step s = .next t) :
    (s.EngineNext ∧ s.busy = false ∧ t = { s with inputs := s.inputs.tail }) ∨
    (s.EngineNext ∧ s.busy = true ∧ complete { s with inputs := s.inputs.tail } = .next t) ∨
    (∃ a rest, s.inputs = .access a :: rest ∧ t = ({ s with inputs := rest } : State).performAccess a) ∨
    (∃ b rest, s.inputs = .resetLine b :: rest ∧ t = ({ s with inputs := rest } : State).driveReset b) := by
  unfold step advance at h
  have engine (hn : s.EngineNext) (he : engineStep { s with inputs := s.inputs.tail } = .next t) :
      (s.EngineNext ∧ s.busy = false ∧ t = { s with inputs := s.inputs.tail }) ∨
      (s.EngineNext ∧ s.busy = true ∧ complete { s with inputs := s.inputs.tail } = .next t) := by
    unfold engineStep at he
    cases hb : s.busy with
    | true => exact .inr ⟨hn, rfl, by simpa [hb] using he⟩
    | false => exact .inl ⟨hn, rfl, by simpa [hb] using he.symm⟩
  split at h
  · rename_i hi
    have : ({ s with inputs := s.inputs.tail } : State) = s := by rw [hi, List.tail_nil, ← hi]
    rcases engine (.inl hi) (by rw [this]; exact h) with h | h
    · exact .inl h
    · exact .inr (.inl h)
  · rename_i rest hi
    rcases engine (.inr ⟨rest, hi⟩) (by rw [hi]; exact h) with h | h
    · exact .inl h
    · exact .inr (.inl h)
  · rename_i a rest hi
    exact .inr (.inr (.inl ⟨a, rest, hi, by simpa using h.symm⟩))
  · rename_i b rest hi
    exact .inr (.inr (.inr ⟨b, rest, hi, by simpa using h.symm⟩))

/-- A step on an access performs it. -/
theorem step_access {s : State} {a : Access} {rest : List Input} (h : s.inputs = .access a :: rest) :
    step s = .next (({ s with inputs := rest } : State).performAccess a) := by
  simp [step, advance, h]

/-- A step on the engine's turn is the engine's. -/
theorem step_engine {s : State} (h : s.EngineNext) : step s = engineStep { s with inputs := s.inputs.tail } := by
  obtain h | ⟨rest, h⟩ := h
  · have : ({ s with inputs := s.inputs.tail } : State) = s := by rw [h, List.tail_nil, ← h]
    rw [this]
    simp [step, advance, h]
  · simp [step, advance, h]

/-- A run whose first step goes on is the rest of the run from there. -/
theorem run_succ {s t : State} (h : step s = .next t) (n : Nat) :
    Host.Core.run Sys2Proof.core (n + 1) s = Host.Core.run Sys2Proof.core n t := by
  have h' : Sys2Proof.core.step s = .next t := h
  simp only [Host.Core.run, h']

end Sys2Proof.Machine
end

