-- ==== Sys2Proof/Tests/Slice0.lean ====
section
/-! SUPPORT. The author's tests: ill-formed commands, decoding of words written out from the spec's encodings, one step of each
command against 95_test_vectors.md, and for every statement with hypotheses a witness that meets them all together. -/

-- One theorem at a time: many long kernel evaluations at once take more threads than check.sh's memory limit has room for.
set_option Elab.async false

namespace Sys2Proof.Tests

open Sys2Proof Sys2Proof.Machine

/-! ### Well-formedness: an ill-formed term for each check -/

theorem test_init_klen_must_fit : Instr.wellFormed (.init 256 0) = false := by decide
theorem test_init_dlen_must_fit : Instr.wellFormed (.init 0 256) = false := by decide
theorem test_enc_dlen_must_fit : Instr.wellFormed (.enc 256) = false := by decide
theorem test_dec_dlen_must_fit : Instr.wellFormed (.dec 256) = false := by decide
theorem test_largest_counts_fit : Instr.wellFormed (.init 255 255) = true ∧ Instr.wellFormed (.enc 255) = true := by
  decide

/-! ### Decoding: words from the patterns of R100 and the rows of V-CMD-1 -/

theorem test_decode_init : decode 0b00000000_11111111_00100000_0000_0001 = .command (.init 32 255) := by decide
theorem test_decode_enc : decode 0b00000000_00001111_00000000_0000_0010 = .command (.enc 15) := by decide
theorem test_decode_dec : decode 0b00000000_00100000_00000000_0000_0011 = .command (.dec 32) := by decide
/-- The illegal words of V-CMD-1. -/
theorem test_decode_illegal :
    decode 0x00000000 = .illegal .reservedOp ∧ decode 0x00100004 = .illegal .reservedOp ∧
    decode 0x0010000F = .illegal .reservedOp ∧ decode 0x00100012 = .illegal .reservedBits ∧
    decode 0x01100002 = .illegal .reservedBits ∧ decode 0x80101001 = .illegal .reservedBits ∧
    decode 0x00101002 = .illegal .lengthOnBlockCommand ∧ decode 0x00100103 = .illegal .lengthOnBlockCommand ∧
    decode 0xFFFFFFFF = .illegal .reservedBits := by decide
/-- R108's words, encoded. -/
theorem test_encode : encode (.init 24 24) = 0x00181801 ∧ encode (.enc 16) = 0x00100002 ∧
    encode (.dec 16) = 0x00100003 := by decide
theorem test_decodeTableWord : decodeTableWord 32 1 = some (.init 0 0) ∧ decodeTableWord 32 2 = some (.enc 0) ∧
    decodeTableWord 32 3 = some (.dec 0) ∧ decodeTableWord 32 4 = none := by decide

/-! ### States for the tests and witnesses -/

/-- The key of V-KAT-1 as words. -/
def katKey : List Word := [0x00010203, 0x04050607, 0x08090a0b, 0x0c0d0e0f]

/-- `DIN` with the given first four words, `DIN[4..7]` all ones. -/
def dinOf (w0 w1 w2 w3 : Word) : Vector Word 8 :=
  #v[w0, w1, w2, w3, 0xffffffff, 0xffffffff, 0xffffffff, 0xffffffff]

/-- A state with the schedule of V-KS-1 loaded and a command completed. -/
def loaded : State :=
  { State.reset with
    ek := fileOf (keyExpansion katKey 4 10) (fun _ => 0)
    dk := fileOf (decKeys (keyExpansion katKey 4 10) 10) (fun _ => 0)
    nr := 10
    keyv := true
    done := true
    cmd := 0x00101001
    din := dinOf 0x00112233 0x44556677 0x8899aabb 0xccddeeff }

/-- `loaded` with a command word pending. -/
def pending (v : Word) (inputs : List Input) : State :=
  { loaded with cmd := v, busy := true, done := false, inputs := inputs }

theorem loaded_inv : loaded.Inv := ⟨by decide, by decide, by decide, by decide, nofun⟩
theorem pending_inv (v : Word) (inputs : List Input) : (pending v inputs).Inv :=
  ⟨nofun, fun _ => .inl rfl, fun _ => ⟨rfl, rfl⟩, nofun, nofun⟩

/-- A field of the state a step leads to, none where it stops. -/
def after {α : Type} (o : Host.Outcome State Fault Refusal) (f : State → α) : Option α :=
  match o with
  | .next s => some (f s)
  | .fault _ => none
  | .refused _ => none

/-! ### One step of each command -/

/-- V-KS-8 (V-KS-1 with `DIN[4..7]` all ones): `STATUS`, `EK[40..43]` and `DK[4..7]` after INIT. -/
theorem test_init_loads : after (exec (.init 16 16)
      { State.reset with din := dinOf 0x00010203 0x04050607 0x08090a0b 0x0c0d0e0f })
      (fun s => (s.status, (s.ek.toList.drop 40).take 4, (s.dk.toList.drop 4).take 4)) =
    some (0x00000A06, [0x13111d7f, 0xe3944a17, 0xf307a78b, 0x4d2b30c5],
      [0x13aa29be, 0x9c8faff6, 0xf770f580, 0x00f7bf03]) := by decide +kernel
/-- V-ERR-2: INIT with `KLEN` 17 and `DLEN` 24 is an InvalidKeySize; V-KS-7: `KLEN` 32, `DLEN` 16 an
InvalidKeyLength, with the old schedule kept. -/
theorem test_init_fails :
    after (complete (pending 0x00181101 [])) State.status = some 0x00000A16 ∧
    after (complete (pending 0x00102001 [])) State.status = some 0x00000A26 := by decide +kernel
/-- V-ENC-5: ENC under the key of V-KAT-1 with `DIN[4..7]` in use. -/
theorem test_enc_encrypts : after (exec (.enc 16) loaded) (fun s => (s.dout.toList, s.status)) =
    some ([0x69c4e0d8, 0x6a7b0430, 0xd8cdb780, 0x70b4c55a], 0x00000A06) := by decide +kernel
/-- V-BND-2: ENC of 15 bytes, and with no key loaded; V-ERR-1: KeyNotLoaded. -/
theorem test_enc_fails :
    after (exec (.enc 15) loaded) State.status = some 0x00000A36 ∧
    after (exec (.enc 15) State.reset) State.status = some 0x00000032 ∧
    after (exec (.enc 16) State.reset) State.status = some 0x00000052 := by decide +kernel
/-- V-DEC-1: DEC under the key of V-KAT-1. -/
theorem test_dec_decrypts : after (exec (.dec 16)
      { loaded with din := dinOf 0x69c4e0d8 0x6a7b0430 0xd8cdb780 0x70b4c55a })
      (fun s => (s.dout.toList, s.status)) =
    some ([0x00112233, 0x44556677, 0x8899aabb, 0xccddeeff], 0x00000A06) := by decide +kernel
/-- V-CMD-1: DEC of 32 bytes. -/
theorem test_dec_fails : after (exec (.dec 32) loaded) State.status = some 0x00000A36 := by decide +kernel
/-- V-ERR-1 and V-ERR-2: illegal words, also where another error would apply. -/
theorem test_illegal_word :
    after (complete (pending 0x00100004 [])) State.status = some 0x00000A46 ∧
    after (complete (pending 0x000F0102 [])) State.err = some .illegalCommand ∧
    after (complete (pending 0x10111101 [])) State.err = some .illegalCommand := by decide +kernel
/-- `withFetchWord` makes the very next step run the word. -/
theorem test_fetch_word :
    after (step (State.reset.withFetchWord 32 1)) State.err = some .invalidKeySize ∧
    after (step (State.reset.withFetchWord 32 0x00101001)) State.nr = some 10 := by decide +kernel

/-! ### The register window, reset, and host programs -/

/-- V-IF-2: `STATUS` while AES-128 is loaded and an ENC is pending. -/
theorem test_status_busy : (pending 0x00100002 []).status = 0x00000A05 := by decide +kernel
/-- V-IF-4: a misaligned write and a sub-word read are errors; the read returns 0. -/
theorem test_bad_accesses :
    after (step { loaded with inputs := [.access (.write .w32 0x11 7)] }) State.responses = some [.writeDone true] ∧
    after (step { loaded with inputs := [.access (.read .w8 0x10)] }) State.responses =
      some [.readData 0 true] := by decide +kernel
/-- V-IF-1: a reset during a command abandons it. -/
theorem test_reset_abandons :
    after (step (pending 0x00100002 [.resetLine true])) (fun s => (s.status, s.dout.toList, s.inReset)) =
      some (0, [0, 0, 0, 0], true) := by decide +kernel
/-- R115's `LDKEY` and `RDOUT` as the transactions of P1. -/
theorem test_ldkey : ldkey [0, 1, 2, 3, 4, 5, 6, 7, 8, 9, 10, 11, 12, 13, 14, 15] =
    [.access (.write .w32 0x10 0x00010203), .access (.write .w32 0x14 0x04050607),
     .access (.write .w32 0x18 0x08090a0b), .access (.write .w32 0x1C 0x0c0d0e0f)] := by decide
theorem test_ldblk_rdout :
    ldblk #v[0, 1, 2, 3, 4, 5, 6, 7, 8, 9, 10, 11, 12, 13, 14, 15] =
      [wr (.din 0) 0x00010203, wr (.din 1) 0x04050607, wr (.din 2) 0x08090a0b, wr (.din 3) 0x0c0d0e0f] ∧
    rdout.head? = some (.access (.read .w32 0x30)) ∧
    wait 1 = [.access (.read .w32 0x04), .engineTurn, .access (.read .w32 0x04)] ∧
    init256 = .access (.write .w32 0x00 0x00202001) ∧ decCommand = .access (.write .w32 0x00 0x00100003) := by
  decide +kernel

/-- A platform address of the window is an access at its offset, one just past the window is none (R70). -/
theorem test_platform_access :
    platformAccess (Config.base + 4) (.read .w32) = some (rd .status) ∧
    platformAccess (Config.base + 64) (.read .w32) = none := by
  constructor
  · simp only [platformAccess, Config.windowOffset, if_pos (show Config.base ≤ Config.base + 4 ∧
      Config.base + 4 < Config.base + 64 by omega), Nat.add_sub_cancel_left, Option.map_some]
    rfl
  · simp only [platformAccess, Config.windowOffset, if_neg (show ¬ (Config.base ≤ Config.base + 64 ∧
      Config.base + 64 < Config.base + 64) by omega), Option.map_none]

/-! ### Witnesses: each meets all the hypotheses of the statement it is named for -/

theorem witness_DecodeReadsTheFields :
    (0x00000010 : Word).toNat / 2 ^ 4 % 16 ≠ 0 ∧ (0x01000000 : Word).toNat / 2 ^ 24 ≠ 0 ∧
    (let v : Word := 0x00FFFF01
     v.toNat / 2 ^ 4 % 16 = 0 ∧ v.toNat / 2 ^ 24 = 0 ∧ v.toNat % 16 = 1) ∧
    (let v : Word := 0x00FF0002
     v.toNat / 2 ^ 4 % 16 = 0 ∧ v.toNat / 2 ^ 24 = 0 ∧ v.toNat % 16 = 2 ∧ v.toNat / 2 ^ 8 % 256 = 0) ∧
    (let v : Word := 0x00FF0003
     v.toNat / 2 ^ 4 % 16 = 0 ∧ v.toNat / 2 ^ 24 = 0 ∧ v.toNat % 16 = 3 ∧ v.toNat / 2 ^ 8 % 256 = 0) ∧
    (let v : Word := 0x00000103
     v.toNat / 2 ^ 4 % 16 = 0 ∧ v.toNat / 2 ^ 24 = 0 ∧ v.toNat % 16 ≠ 1 ∧
       ¬ ((v.toNat % 16 = 2 ∨ v.toNat % 16 = 3) ∧ v.toNat / 2 ^ 8 % 256 = 0)) ∧
    decode 0x00000010 = .illegal .reservedBits := by decide

theorem witness_IllegalWordsAreAcceptedAndReported :
    let s := { loaded with inputs := [wr .cmd 0x00000000, .engineTurn] }
    (∃ why, decode 0x00000000 = .illegal why) ∧ s.busy = false ∧ s.inReset = false ∧
      s.inputs = wr .cmd 0x00000000 :: .engineTurn :: [] := ⟨⟨.reservedOp, by decide⟩, rfl, rfl, rfl⟩

theorem witness_DecodeEncodeAgree : Instr.wellFormed (.init 255 0) = true ∧ Instr.wellFormed (.dec 255) = true := by
  decide
theorem witness_EncodeDecodeAgree : decode 0x00FF0002 = .command (.enc 255) := by decide
theorem witness_InverseIsUnique : (0xff : Byte) ≠ 0x00 := by decide
theorem witness_SboxTableIsTheDefinition : 1 ≤ 4 ∧ 4 ≤ 4 := by decide
theorem witness_RoundConstants :
    1 ≤ 1 ∧ 2 ≤ 2 ∧ (8, 7) ∈ [(4, 10), (6, 8), (8, 7)] ∧ (List.replicate 8 (0 : Word)).length = 8 ∧
      (8 ≤ 56 ∧ 56 < scheduleLength (8 + 6) ∧ 56 % 8 = 0) ∧
      (8 ≤ 59 ∧ 59 < scheduleLength (8 + 6) ∧ 59 % 8 ≠ 0) ∧ 1 ≤ 7 ∧ 7 ≤ 7 := by decide
theorem witness_WordsArePackedBigEndian :
    let key : List Byte := [1, 2, 3, 4, 5, 6, 7, 8]
    1 < 2 ∧ key[4 * 1]? = some 5 ∧ key[4 * 1 + 1]? = some 6 ∧ key[4 * 1 + 2]? = some 7 ∧ key[4 * 1 + 3]? = some 8 := by
  decide
theorem witness_DataRegisterByteOrder :
    (8 = 4 ∨ 8 = 6 ∨ 8 = 8) ∧ (dinOf 0x00010203 0 0 0)[0] = 0x00010203 := by decide
theorem witness_ShiftRowsRotatesRows : 3 < 4 ∧ 3 < 4 := by decide
theorem witness_KeyExpansionRecurrence :
    (8 = 4 ∨ 8 = 6 ∨ 8 = 8) ∧ (List.replicate 32 (0 : Byte)).length = 4 * 8 ∧ 7 < 8 ∧
      (8 ≤ 59 ∧ 59 < 4 * (8 + 6 + 1)) := by decide
theorem witness_DecryptionRoundKeys : (keyExpansion katKey 4 10).length = 4 * (10 + 1) ∧ 10 ≤ 10 := by decide +kernel
theorem witness_InitLoadsTheKey : (32 = 16 ∨ 32 = 24 ∨ 32 = 32) ∧ ((59 : Fin 60).val < 4 * (32 / 4 + 6 + 1)) := by decide
theorem witness_EncWritesTheCiphertext : loaded.keyv = true ∧ legalRounds loaded.nr := by decide
theorem witness_DecWritesThePlaintext :
    ({ loaded with nr := 14 } : State).keyv = true ∧ legalRounds ({ loaded with nr := 14 } : State).nr := by decide
theorem witness_FailedCommandChangesOnlyTheResult :
    decode (pending 0x000F0002 []).cmd = .command (.enc 15) ∧
      commandResult (.command (.enc 15)) (pending 0x000F0002 []).keyv ≠ .ok ∧
    decode (pending 0x00101101 []).cmd = .command (.init 17 16) ∧
      commandResult (.command (.init 17 16)) (pending 0x00101101 []).keyv ≠ .ok := by decide
theorem witness_CompletionReportsTheFirstCause :
    decode (pending 0x00100002 []).cmd = .command (.enc 16) ∧
    decode (pending 0x00201001 []).cmd = .command (.init 16 32) ∧
    decode (pending 0 []).cmd = .illegal .reservedOp := by decide
theorem witness_IllegalRoundCountLeavesDoutOpen :
    ({ loaded with nr := 11 } : State).keyv = true ∧ ¬ legalRounds ({ loaded with nr := 11 } : State).nr := by decide
theorem witness_KnownAnswers :
    (4, ([0x69c4e0d8, 0x6a7b0430, 0xd8cdb780, 0x70b4c55a] : List Word)) ∈
      [(4, [0x69c4e0d8, 0x6a7b0430, 0xd8cdb780, 0x70b4c55a])] ∧
    (Block.words #v[0x69, 0xc4, 0xe0, 0xd8, 0x6a, 0x7b, 0x04, 0x30, 0xd8, 0xcd, 0xb7, 0x80, 0x70, 0xb4, 0xc5,
      0x5a]).toList = [0x69c4e0d8, 0x6a7b0430, 0xd8cdb780, 0x70b4c55a] := by decide +kernel

/-- A state like `loaded` but for what a block command must not read. -/
def loadedOther : State :=
  { loaded with
    ek := loaded.ek.set 59 7, dk := loaded.dk.set 44 7, din := loaded.din.set 4 0, dout := loaded.dout.set 0 7 }

theorem witness_BlockCommandsDependOnKeyAndBlockOnly :
    loaded ≠ loadedOther ∧ loaded.keyv = true ∧ loadedOther.keyv = true ∧ legalRounds loaded.nr ∧
    loaded.nr = loadedOther.nr ∧ (∀ c : Fin 4, loaded.din[c.val] = loadedOther.din[c.val]) ∧
    (∀ i : Fin 60, i.val < 4 * (loaded.nr.toNat + 1) → loaded.ek[i] = loadedOther.ek[i]) ∧
    (∀ i : Fin 60, i.val < 4 * (loaded.nr.toNat + 1) → loaded.dk[i] = loadedOther.dk[i]) := by decide +kernel
theorem witness_InitDependsOnKeyBytesOnly :
    (16 = 16 ∨ 16 = 24 ∨ 16 = 32) ∧ loaded ≠ loadedOther ∧
      ∀ k : Fin 8, k.val < 16 / 4 → loaded.din[k] = loadedOther.din[k] := by decide +kernel
theorem witness_DecryptionInvertsEncryption : (4 = 4 ∨ 4 = 6 ∨ 4 = 8) ∧ katKey.length = 4 := by decide
/-- The copy of `DOUT` that the statement asks for exists for every `DOUT`. -/
theorem witness_RoundTripOnTheRegisters (u : State) :
    (24 = 16 ∨ 24 = 24 ∨ 24 = 32) ∧ ∀ c : Fin 4, (dinOf u.dout[0] u.dout[1] u.dout[2] u.dout[3])[c.val] = u.dout[c] := by
  refine ⟨by decide, fun c => ?_⟩
  match c with
  | 0 => rfl
  | 1 => rfl
  | 2 => rfl
  | 3 => rfl
theorem witness_PlainInverseCipherAgrees :
    (10 = 10 ∨ 10 = 12 ∨ 10 = 14) ∧
      ∀ i : Fin 60, i.val < 4 * (10 + 1) → loaded.dk[i] = decKeyWord loaded.ek.toList 10 i.val := by decide +kernel

theorem witness_StepRunsThePendingCommand :
    let s := pending 0x00100003 [.engineTurn, rd .status]
    s.busy = true ∧ s.EngineNext ∧ decode s.cmd = .command (.dec 16) := ⟨rfl, .inr ⟨_, rfl⟩, by decide⟩
theorem witness_StepRunsThePendingCommand_no_input :
    let s := pending 0x00100002 []
    s.busy = true ∧ s.EngineNext ∧ decode s.cmd = .command (.enc 16) := ⟨rfl, .inl rfl, by decide⟩
theorem witness_IdleEngineDoesNothing : loaded.busy = false ∧ loaded.EngineNext := ⟨rfl, .inl rfl⟩

theorem reset_inv : State.reset.Inv := ⟨by decide, by decide, by decide, by decide, nofun⟩
theorem witness_StepKeepsTheInvariant :
    State.reset.Inv ∧ ∃ t, step { loaded with inputs := [wr .cmd 0x00100002] } = .next t ∧ t.busy = true :=
  ⟨reset_inv, _, step_access rfl, by decide +kernel⟩
/-- A step that loads a schedule, from a state that meets the hypothesis. -/
theorem witness_StepKeepsTheSchedule :
    (State.reset.withFetchWord 32 0x00101001).ScheduleOk ∧
      ∃ t, step (State.reset.withFetchWord 32 0x00101001) = .next t ∧ t.keyv = true :=
  ⟨⟨nofun, nofun⟩, _, rfl, rfl⟩

/-- Steps that change the schedule: an INIT that completes, and a reset. -/
theorem witness_OnlyInitOrResetChangesTheSchedule :
    after (step (State.reset.withFetchWord 32 0x00101001)) State.keyv = some true ∧ State.reset.keyv = false ∧
    after (step { loaded with inputs := [.resetLine true] }) State.nr = some 0 ∧ loaded.nr ≠ 0 := by decide +kernel
/-- A step that changes `DOUT`. -/
theorem witness_OnlyBlockCommandsOrResetChangeDout :
    (after (step (pending 0x00100003 [])) State.dout).any (· != (pending 0x00100003 []).dout) = true := by decide +kernel
/-- A step that changes `DIN`. -/
theorem witness_OnlyHostWritesOrResetChangeDin :
    after (step { loaded with inputs := [wr (.din 7) 5] }) State.din = some (loaded.din.set 7 5) ∧
      loaded.din.set 7 5 ≠ loaded.din := by decide +kernel
/-- Steps that change a flag: an acceptance and a completion. -/
theorem witness_FlagsChangeOnlyAtAcceptanceCompletionReset :
    after (step { loaded with inputs := [wr .cmd 0] }) State.busy = some true ∧ loaded.busy = false ∧
    after (step (pending 0 [])) State.busy = some false ∧ (pending 0 []).busy = true := by decide +kernel
theorem witness_LatencyIsAnyNumberOfAccesses :
    let s := { loaded with inputs := [wr .cmd 0x00100002, wr (.din 0) 0xffffffff, .engineTurn] }
    s.busy = false ∧ s.inReset = false ∧
      s.inputs = wr .cmd 0x00100002 ::
        (([.write .w32 (Reg.din 0).offset 0xffffffff] : List Access).map .access ++ .engineTurn :: []) :=
  ⟨rfl, rfl, rfl⟩
theorem witness_PendingCommandCompletes :
    let s := pending 0x00100002 [rd .status, .engineTurn]
    s.busy = true ∧ ∀ b, Input.resetLine b ∉ s.inputs := ⟨rfl, by decide⟩

theorem witness_WindowPlacement :
    Config.windowOffset (Config.base + 63) = some 63 ∧ Config.base + 64 ≤ Config.base + 64 := by
  refine ⟨?_, Nat.le_refl _⟩
  rw [Config.windowOffset, if_pos (by omega), Nat.add_sub_cancel_left]
  rfl
theorem witness_StatusFields : loaded.Inv := loaded_inv
theorem witness_BadAccessIsAnError :
    let s := { loaded with inputs := [.access (.read .w64 0x3C)] }
    let t := { loaded with inputs := [.access (.write .w32 0x3F 1)] }
    (s.inReset = false ∧ (Width.w64 ≠ .w32 ∨ (0x3C : Offset).toNat % 4 ≠ 0) ∧
      s.inputs = .access (.read .w64 0x3C) :: []) ∧
    (t.inReset = false ∧ (Width.w32 ≠ .w32 ∨ (0x3F : Offset).toNat % 4 ≠ 0) ∧
      t.inputs = .access (.write .w32 0x3F 1) :: []) := by decide +kernel
theorem witness_ReadReturnsTheRegister :
    let s := { loaded with inputs := [rd (.dout 3)] }
    s.inReset = false ∧ s.inputs = rd (.dout 3) :: [] := ⟨rfl, rfl⟩
theorem witness_ReservedAndReadOnlyRegisters :
    let s := { loaded with inputs := [wr (.reserved 1) 1] }
    let t := { loaded with inputs := [rd (.reserved 0)] }
    (s.inReset = false ∧ (∃ k, Reg.reserved 1 = .reserved k) ∧ s.inputs = wr (.reserved 1) 1 :: []) ∧
    (t.inReset = false ∧ (∃ k, Reg.reserved 0 = .reserved k) ∧ t.inputs = rd (.reserved 0) :: []) :=
  ⟨⟨rfl, ⟨1, rfl⟩, rfl⟩, ⟨rfl, ⟨0, rfl⟩, rfl⟩⟩
theorem witness_IdleWritesTakeEffect :
    let s := { loaded with inputs := [wr .cmd 0] }
    let t := { loaded with inputs := [wr (.din 7) 0] }
    (s.inReset = false ∧ s.busy = false ∧ s.inputs = wr .cmd 0 :: []) ∧
    (t.inReset = false ∧ t.busy = false ∧ t.inputs = wr (.din 7) 0 :: []) := ⟨⟨rfl, rfl, rfl⟩, ⟨rfl, rfl, rfl⟩⟩
theorem witness_BusyWritesAreDropped :
    let s := pending 0x00100002 [wr (.din 0) 0]
    let t := pending 0x00100002 [rd .status]
    (s.Inv ∧ s.busy = true ∧ s.inputs = wr (.din 0) 0 :: []) ∧ (t.Inv ∧ t.busy = true ∧ t.inputs = rd .status :: []) :=
  ⟨⟨pending_inv _ _, rfl, rfl⟩, ⟨pending_inv _ _, rfl, rfl⟩⟩
theorem witness_ResetInputPutsResetValues :
    let s := { State.reset with inReset := true, inputs := [.resetLine false] }
    (pending 0 [.resetLine true]).inputs = .resetLine true :: [] ∧
      (s.inputs = .resetLine false :: [] ∧ s.inReset = true) ∧
      (pending 0 [.resetLine false]).inputs = .resetLine false :: [] ∧ (pending 0 [.resetLine false]).inReset = false :=
  ⟨rfl, ⟨rfl, rfl⟩, rfl, rfl⟩
theorem witness_AccessesAreLostDuringReset :
    let s := { State.reset with inReset := true, inputs := [wr .cmd 1] }
    s.inReset = true ∧ s.inputs = .access (.write .w32 0x00 1) :: [] := ⟨rfl, rfl⟩

end Sys2Proof.Tests
end

section
/-! SUPPORT. The fields of `STATUS` (R42), the round counts that the register invariant allows (R36, R37) and the reset
values (R48), and the two statements about them. -/

namespace Sys2Proof.Machine

section
variable (s : State)

/-- A bit of `STATUS`, by the field it lies in (R42). Past bit 11 it is a bit of `NR` past its width, so 0. -/
theorem State.getLsbD_status (i : Nat) :
    s.status.getLsbD i =
      if i = 0 then s.busy else if i = 1 then s.done else if i = 2 then s.keyv else if i = 3 then false
      else if i < 8 then s.err.code.getLsbD (i - 4) else s.nr.getLsbD (i - 8) := by
  simp only [State.status, BitVec.getLsbD_setWidth, BitVec.getLsbD_append]
  match i with
  | 0 => simp
  | 1 => simp
  | 2 => simp
  | 3 => simp
  | j + 4 =>
    by_cases herr : j < 4
    · simp [herr, show j + 4 < 32 by omega, show j + 4 < 8 by omega]
    · by_cases hnr : j < 8
      · simp [herr, show j + 4 < 32 by omega, show ¬ j + 4 < 8 by omega]
      · simp [herr, BitVec.getLsbD_of_ge, show ¬ j + 4 < 8 by omega, show 4 ≤ j - 4 by omega]

/-- Bits 7:4 of `STATUS` are `ERR` (R42). -/
theorem State.status_err : s.status.extractLsb' 4 4 = s.err.code := by
  refine BitVec.eq_of_getLsbD_eq fun i hi => ?_
  rw [BitVec.getLsbD_extractLsb', State.getLsbD_status, if_neg (by omega), if_neg (by omega), if_neg (by omega),
    if_neg (by omega), if_pos (by omega), decide_eq_true hi, Bool.true_and, Nat.add_sub_cancel_left]

/-- The bits of `STATUS` from bit 8 on are those of `NR`. -/
theorem State.getLsbD_status_nr (i : Nat) : s.status.getLsbD (8 + i) = s.nr.getLsbD i := by
  rw [State.getLsbD_status, if_neg (by omega), if_neg (by omega), if_neg (by omega), if_neg (by omega),
    if_neg (by omega), Nat.add_sub_cancel_left]

/-- Bits 11:8 of `STATUS` are `NR` (R42). -/
theorem State.status_nr : s.status.extractLsb' 8 4 = s.nr := by
  refine BitVec.eq_of_getLsbD_eq fun i hi => ?_
  rw [BitVec.getLsbD_extractLsb', State.getLsbD_status_nr, decide_eq_true hi, Bool.true_and]

/-- Bits 31:12 of `STATUS` are reserved and read 0 (R42): `NR` has no bit past its fourth. -/
theorem State.status_reserved : s.status.extractLsb' 12 20 = 0 := by
  refine BitVec.eq_of_getLsbD_eq fun i _ => ?_
  rw [BitVec.getLsbD_extractLsb', show 12 + i = 8 + (4 + i) by omega, State.getLsbD_status_nr,
    BitVec.getLsbD_of_ge _ _ (by omega), Bool.and_false, BitVec.ofNat_eq_ofNat, BitVec.getLsbD_zero]

end

/-- The reserved codes 0x6-0xF are the value of no result (R45). -/
theorem ErrCode.code_le (e : ErrCode) : e.code.toNat ≤ 5 := by
  cases e <;> decide

/-- The legal values of `NR` (R36): an unloaded schedule has 0, a loaded one a legal round count (R37). -/
theorem State.Inv.nr_values {s : State} (h : s.Inv) : s.nr = 0 ∨ s.nr = 10 ∨ s.nr = 12 ∨ s.nr = 14 := by
  cases hk : s.keyv with
  | false => exact .inl (h.unloaded hk)
  | true => exact .inr (h.loaded hk)

/-- "So `STATUS` reads 0x00000000 after reset" (R48): its fields are among the registers with a reset value. -/
theorem State.AtReset.status_eq_zero {s : State} (h : s.AtReset) : s.status = 0 := by
  simp [State.status, h.nr, h.err, h.keyv, h.done, h.busy, ErrCode.code]

theorem State.reset_atReset : State.reset.AtReset where
  nr := rfl
  keyv := rfl
  din := rfl
  dout := rfl
  cmd := rfl
  busy := rfl
  done := rfl
  err := rfl

/-- Settles O49: each field is read off the bits of `STATUS`, the values of `NR` off the invariant. -/
theorem statusFields : Obligations.StatusFields := by
  refine ⟨fun s => ?_, fun _ => State.Inv.nr_values, State.reset_atReset.status_eq_zero⟩
  have hbit := s.getLsbD_status
  exact ⟨hbit 0, hbit 1, hbit 2, hbit 3, s.status_err, s.status_nr, s.status_reserved, s.err.code_le, fun _ => rfl⟩

/-- Settles O55: `State.reset` has the values of R48, and `STATUS` is made of them. -/
theorem resetState : Obligations.ResetState :=
  ⟨State.reset_atReset, rfl, State.reset_atReset.status_eq_zero⟩

end Sys2Proof.Machine
end

section
/-! SUPPORT. What an access of the register window does outside reset (R72, R73), and the statements about the accesses
that change no register: those that are errors (R73), those to reserved and read-only registers (R74, R75) and those
while a command is pending (R79). -/

namespace Sys2Proof.Machine

section
variable {s : State} {width : Width} {off : Offset} {rest : List Input}

/-- A read that selects no register is answered with 0 and an error (R73). -/
theorem step_read_bad (hr : s.inReset = false) (ht : target width off = none)
    (hi : s.inputs = .access (.read width off) :: rest) :
    step s = .next { s with inputs := rest, responses := .readData 0 true :: s.responses } := by
  simp [step_access hi, State.performAccess, hr, ht, State.respond]

/-- A write that selects no register is answered with an error (R73). -/
theorem step_write_bad {v : Word} (hr : s.inReset = false) (ht : target width off = none)
    (hi : s.inputs = .access (.write width off v) :: rest) :
    step s = .next { s with inputs := rest, responses := .writeDone true :: s.responses } := by
  simp [step_access hi, State.performAccess, hr, ht, State.respond]

/-- A read of a register returns it and does nothing else (R72, R78). -/
theorem step_rd {r : Reg} (hr : s.inReset = false) (hi : s.inputs = rd r :: rest) :
    step s = .next { s with inputs := rest, responses := .readData (s.readReg r) false :: s.responses } := by
  have hread : ({ s with inputs := rest } : State).readReg r = s.readReg r := by cases r <;> rfl
  rw [step_access hi, State.performAccess, target_offset, if_neg (by simp [hr]), ← hread]
  rfl

/-- A write of a register writes it and is no error (R72). -/
theorem step_wr {r : Reg} {v : Word} (hr : s.inReset = false) (hi : s.inputs = wr r v :: rest) :
    step s = .next ((({ s with inputs := rest } : State).writeReg v r).respond (.writeDone false)) := by
  simp [step_access hi, State.performAccess, hr]

end

/-- A write to `STATUS`, a reserved offset or `DOUT` is ignored (R74, R75). -/
theorem writeReg_of_readOnly (s : State) (v : Word) {r : Reg}
    (h : r = .status ∨ (∃ k, r = .reserved k) ∨ ∃ k, r = .dout k) : s.writeReg v r = s := by
  obtain rfl | ⟨k, rfl⟩ | ⟨k, rfl⟩ := h <;> rfl

/-- No command is pending while reset is asserted (R340). -/
theorem State.Inv.inReset_of_busy {s : State} (h : s.Inv) (hb : s.busy = true) : s.inReset = false := by
  by_contra hr
  have hidle := (h.held (by simpa using hr)).busy
  simp [hb] at hidle

/-- `STATUS` while a command is pending: `BUSY` 1, `DONE` 0, `ERR` 0, `KEYV` and `NR` as they are (R79). -/
theorem State.Inv.status_of_busy {s : State} (h : s.Inv) (hb : s.busy = true) :
    s.status = (s.nr ++ (0 : BitVec 5) ++ BitVec.ofBool s.keyv ++ (0b01 : BitVec 2)).setWidth 32 := by
  obtain ⟨hdone, herr⟩ := h.pending hb
  simp only [State.status, hb, hdone, herr]
  generalize s.nr = nr, s.keyv = keyv
  revert nr keyv
  decide

/-- Settles O50: such an access selects no register. -/
theorem badAccessIsAnError : Obligations.BadAccessIsAnError := by
  intro s width off v rest hr hbad
  have ht := (target_eq_none width off).2 hbad
  exact ⟨step_read_bad hr ht, step_write_bad hr ht⟩

/-- Settles O52: the write leaves the state as it is, and a reserved offset reads as 0. -/
theorem reservedAndReadOnlyRegisters : Obligations.ReservedAndReadOnlyRegisters := by
  intro s r v rest hr hro
  refine ⟨fun hi => ?_, ?_⟩
  · rw [step_wr hr hi, writeReg_of_readOnly _ _ hro, State.respond]
  · rintro ⟨k, rfl⟩ hi
    exact step_rd hr hi

/-- Settles O54: the invariant keeps a pending command out of reset, a busy block drops writes, and a read returns the
register, which for `STATUS` the invariant pins. -/
theorem busyWritesAreDropped : Obligations.BusyWritesAreDropped := by
  intro s v rest hinv hb
  have hr := hinv.inReset_of_busy hb
  refine ⟨fun r _ hi => ?_, fun r hi => ⟨s.readReg r, step_rd hr hi, ?_, ?_, ?_, ?_⟩⟩
  · rw [step_wr hr hi, writeReg_of_busy (s := { s with inputs := rest }) hb, State.respond]
  · rintro rfl; rfl
  · rintro k rfl; rfl
  · rintro k rfl; rfl
  · rintro rfl; exact hinv.status_of_busy hb

end Sys2Proof.Machine
end

section
/-! SUPPORT. The byte order of `DIN` and `DOUT` (R76): their bytes by value, and the words and key words that the bytes
make. -/

namespace Sys2Proof.Machine

/-- Byte `k` of a word by value: the 8 bits from bit 31 - 8k down (R138). -/
theorem toNat_byteOf (k : Fin 4) (w : Word) : (byteOf k w).toNat = w.toNat / 2 ^ (24 - 8 * k.val) % 256 := by
  simp [byteOf, BitVec.extractLsb'_toNat, Nat.shiftRight_eq_div_pow]

/-- Byte `r + 4c` of an output block is byte `r` of `DOUT[c]` (R76, R139). -/
theorem getElem_eq_byteOf_words (out : Block) (j : Fin 16) :
    out[j] = byteOf ⟨j.val % 4, by omega⟩ out.words[j.val / 4] := by
  rw [getElem_words, byteOf_column]
  simp only [Block.get, Nat.mod_add_div, Fin.getElem_fin]

/-- Byte `4k + r` of `DIN` is byte `r` of `DIN[k]` (R76). -/
theorem dinByte_mk (din : Vector Word 8) (k : Fin 8) (r : Fin 4) :
    dinByte din ⟨4 * k.val + r.val, by omega⟩ = byteOf r din[k] := by
  unfold dinByte
  congr 1
  · apply Fin.ext; simp only []; omega
  · simp only [Fin.getElem_fin]; congr 1; omega

/-- The four bytes of a `DIN` word put together give the word (R76). -/
theorem word_dinByte (din : Vector Word 8) (k : Fin 8) :
    word (dinByte din ⟨4 * k.val, by omega⟩) (dinByte din ⟨4 * k.val + 1, by omega⟩)
      (dinByte din ⟨4 * k.val + 2, by omega⟩) (dinByte din ⟨4 * k.val + 3, by omega⟩) = din[k] := by
  have hbyte := dinByte_mk din k
  calc
    _ = word (byteOf 0 din[k]) (byteOf 1 din[k]) (byteOf 2 din[k]) (byteOf 3 din[k]) := by
      rw [← hbyte 0, ← hbyte 1, ← hbyte 2, ← hbyte 3]; rfl
    _ = din[k] := word_byteOf _

/-- Key byte `j` is byte `j` of `DIN` (R170). -/
theorem getD_keyBytes (din : Vector Word 8) {klen j : Nat} (hj : j < klen) (hj32 : j < 32) :
    (keyBytes din klen).getD j 0 = dinByte din ⟨j, hj32⟩ := by
  simp [keyBytes, List.getD, hj, hj32]

/-- The key words of INIT are the first words of `DIN` (R76). -/
theorem keyWords_keyBytes (din : Vector Word 8) {nk : Nat} (hnk : nk ≤ 8) :
    keyWords (keyBytes din (4 * nk)) nk = din.toList.take nk := by
  refine List.ext_getElem (by simp [keyWords, hnk]) fun i hi _ => ?_
  have hlt : i < nk := by simpa [keyWords] using hi
  have hword := word_dinByte din ⟨i, by omega⟩
  simp only [keyWords, List.getElem_map, List.getElem_range]
  rw [getD_keyBytes din (j := 4 * i) (by omega) (by omega), getD_keyBytes din (by omega) (by omega),
    getD_keyBytes din (by omega) (by omega), getD_keyBytes din (by omega) (by omega), hword]
  simp

/-- Settles O13: byte `j` of a data register is byte `j mod 4` of word `j div 4`, and four such bytes make the word. -/
theorem dataRegisterByteOrder : Obligations.DataRegisterByteOrder := by
  refine ⟨fun din j => toNat_byteOf _ _, fun out j => ?_, fun din k => (word_dinByte din k).symm,
    fun din nk hnk => keyWords_keyBytes din (by omega), fun din h0 => ?_⟩
  · rw [getElem_eq_byteOf_words, toNat_byteOf]
  · have hkey : keyBytes din 4 = [byteOf 0 din[0], byteOf 1 din[0], byteOf 2 din[0], byteOf 3 din[0]] := rfl
    rw [hkey, h0]
    decide

end Sys2Proof.Machine
end

section
/-! SUPPORT. Decoding case by case (R105), which words are illegal (R106), and the three statements about them. -/

namespace Sys2Proof

section
variable {v : Word}

/-- `OP` by the word's value (R100). -/
theorem opField_eq_iff (op : BitVec 4) : opField v = op ↔ v.toNat % 16 = op.toNat := by
  rw [← BitVec.toNat_inj, opField_toNat]

theorem rsv0Field_eq_zero_iff : rsv0Field v = 0 ↔ v.toNat / 2 ^ 4 % 16 = 0 := by
  rw [← BitVec.toNat_inj, rsv0Field_toNat]
  rfl

theorem klenField_eq_zero_iff : klenField v = 0 ↔ v.toNat / 2 ^ 8 % 256 = 0 := by
  rw [← BitVec.toNat_inj, klenField_toNat]
  rfl

theorem rsv1Field_eq_zero_iff : rsv1Field v = 0 ↔ v.toNat / 2 ^ 24 = 0 := by
  rw [← BitVec.toNat_inj, rsv1Field_toNat]
  rfl

/-- A nonzero reserved field makes a word illegal, whatever its other fields (R104). -/
theorem decode_of_reservedBits (h : rsv0Field v ≠ 0 ∨ rsv1Field v ≠ 0) : decode v = .illegal .reservedBits :=
  if_pos h

section
variable (h0 : rsv0Field v = 0) (h1 : rsv1Field v = 0)
include h0 h1

theorem decode_of_init (hop : opField v = 0x1) :
    decode v = .command (.init (klenField v).toNat (dlenField v).toNat) := by
  simp [decode, h0, h1, hop]

theorem decode_of_enc (hop : opField v = 0x2) (hk : klenField v = 0) :
    decode v = .command (.enc (dlenField v).toNat) := by
  simp [decode, h0, h1, hop, hk]

theorem decode_of_dec (hop : opField v = 0x3) (hk : klenField v = 0) :
    decode v = .command (.dec (dlenField v).toNat) := by
  simp [decode, h0, h1, hop, hk]

/-- ENC and DEC declare no key length (R102). -/
theorem decode_of_lengthOnBlockCommand (hop : opField v = 0x2 ∨ opField v = 0x3) (hk : klenField v ≠ 0) :
    decode v = .illegal .lengthOnBlockCommand := by
  obtain hop | hop := hop <;> simpa [decode, h0, h1, hop] using hk

theorem decode_of_reservedOp (hi : opField v ≠ 0x1) (he : opField v ≠ 0x2) (hd : opField v ≠ 0x3) :
    decode v = .illegal .reservedOp := by
  rw [decode, if_neg (by simp [h0, h1]), if_neg hi, if_neg he, if_neg hd]

end

/-- R106 on the fields: the cases of the decoder are exhaustive, so the illegal words are those of its illegal cases. -/
theorem exists_decode_illegal_iff :
    (∃ why, decode v = .illegal why) ↔
      rsv0Field v ≠ 0 ∨ rsv1Field v ≠ 0 ∨
        (opField v ≠ 0x1 ∧ ¬ ((opField v = 0x2 ∨ opField v = 0x3) ∧ klenField v = 0)) := by
  by_cases h0 : rsv0Field v = 0
  case neg => exact iff_of_true ⟨_, decode_of_reservedBits (.inl h0)⟩ (.inl h0)
  by_cases h1 : rsv1Field v = 0
  case neg => exact iff_of_true ⟨_, decode_of_reservedBits (.inr h1)⟩ (.inr (.inl h1))
  by_cases hi : opField v = 0x1
  case pos => simp [decode_of_init h0 h1 hi, h0, h1, hi]
  by_cases hop : opField v = 0x2 ∨ opField v = 0x3
  case neg =>
    obtain ⟨he, hd⟩ := not_or.1 hop
    exact iff_of_true ⟨_, decode_of_reservedOp h0 h1 hi he hd⟩ (.inr (.inr ⟨hi, fun h => hop h.1⟩))
  by_cases hk : klenField v = 0
  case neg => exact iff_of_true ⟨_, decode_of_lengthOnBlockCommand h0 h1 hop hk⟩ (.inr (.inr ⟨hi, fun h => hk h.2⟩))
  obtain he | hd := hop
  · simp [decode_of_enc h0 h1 he hk, h0, h1, he, hk]
  · simp [decode_of_dec h0 h1 hd hk, h0, h1, hd, hk]

end

end Sys2Proof

namespace Sys2Proof.Machine

section
variable {s : State} {v : Word} {rest : List Input}

/-- The completion of an illegal word raises IllegalCommand (R304). -/
theorem complete_of_illegal {why : IllegalReason} (h : decode s.cmd = .illegal why) :
    complete s = .next (s.raise .illegalCommand) := by
  simp [complete, h]

/-- An idle block accepts any word that is written to `CMD` (R78). -/
theorem step_wr_cmd_of_idle (hr : s.inReset = false) (hb : s.busy = false) (hi : s.inputs = wr .cmd v :: rest) :
    step s = .next ((({ s with inputs := rest } : State).accept v).respond (.writeDone false)) := by
  rw [step_wr hr hi]
  simp [State.writeReg, hb]

/-- At the engine's turn a pending command completes (R7). -/
theorem step_engineTurn_of_busy (hb : s.busy = true) (hi : s.inputs = .engineTurn :: rest) :
    step s = complete { s with inputs := rest } := by
  rw [step_engine (.inr ⟨rest, hi⟩), hi, List.tail_cons]
  exact if_pos hb

end

/-- Settles O1: the decoder evaluated on the five words. -/
theorem canonicalWordsDecode : Obligations.CanonicalWordsDecode := by
  unfold Obligations.CanonicalWordsDecode
  decide

/-- Settles O2: the decoder's cases, with each field read by value. -/
theorem decodeReadsTheFields : Obligations.DecodeReadsTheFields := by
  intro v op rsv0 klen dlen rsv1
  have hop := opField_eq_iff (v := v)
  have hklen : (klenField v).toNat = klen := klenField_toNat v
  have hdlen : (dlenField v).toNat = dlen := dlenField_toNat v
  refine ⟨fun hrsv => ?_, fun h0 h1 => ?_, fun s why h => complete_of_illegal h⟩
  · rw [ne_eq, ne_eq, ← rsv0Field_eq_zero_iff, ← rsv1Field_eq_zero_iff] at hrsv
    exact ⟨_, decode_of_reservedBits hrsv⟩
  · replace h0 := rsv0Field_eq_zero_iff.2 h0
    replace h1 := rsv1Field_eq_zero_iff.2 h1
    refine ⟨fun hi => ?_, fun he hk => ?_, fun hd hk => ?_, fun hi hblock => ?_⟩
    · rw [decode_of_init h0 h1 ((hop 1).2 hi), hklen, hdlen]
    · rw [decode_of_enc h0 h1 ((hop 2).2 he) (klenField_eq_zero_iff.2 hk), hdlen]
    · rw [decode_of_dec h0 h1 ((hop 3).2 hd) (klenField_eq_zero_iff.2 hk), hdlen]
    · refine exists_decode_illegal_iff.2 (.inr (.inr ?_))
      rw [ne_eq, hop, hop, hop, klenField_eq_zero_iff]
      exact ⟨hi, hblock⟩

/-- Settles O3: the illegal cases of the decoder by value, then acceptance (R78) and the completion of an illegal word
(R304), one step each. -/
theorem illegalWordsAreAcceptedAndReported : Obligations.IllegalWordsAreAcceptedAndReported := by
  intro v
  constructor
  · simp only [exists_decode_illegal_iff, ne_eq, rsv0Field_eq_zero_iff, rsv1Field_eq_zero_iff, klenField_eq_zero_iff,
      opField_eq_iff, BitVec.reduceToNat]
    omega
  · rintro s rest ⟨why, hv⟩ hb hr hi
    rw [run_succ (step_wr_cmd_of_idle hr hb hi),
      run_succ ((step_engineTurn_of_busy rfl rfl).trans (complete_of_illegal hv))]
    rfl

end Sys2Proof.Machine
end

section
/-! SUPPORT. The operand layout's last rules, bytes in words and the columns of the state (R138, R139), and the two
statements about them. -/

namespace Sys2Proof.Machine

/-- A word's value: its first byte is the most significant (R138). -/
theorem toNat_word (b0 b1 b2 b3 : Byte) :
    (word b0 b1 b2 b3).toNat = b0.toNat * 2 ^ 24 + b1.toNat * 2 ^ 16 + b2.toNat * 2 ^ 8 + b3.toNat := by
  rw [word, BitVec.toNat_append, ← Nat.shiftLeft_add_eq_or_of_lt b3.isLt, BitVec.toNat_append,
    ← Nat.shiftLeft_add_eq_or_of_lt b2.isLt, BitVec.toNat_append, ← Nat.shiftLeft_add_eq_or_of_lt b1.isLt]
  simp only [Nat.shiftLeft_eq]
  omega

/-- Key word `i` is put together from the key bytes `4i` to `4i+3` (R138). -/
theorem getElem?_keyWords {key : List Byte} {nk i : Nat} {b0 b1 b2 b3 : Byte} (hi : i < nk)
    (h0 : key[4 * i]? = some b0) (h1 : key[4 * i + 1]? = some b1) (h2 : key[4 * i + 2]? = some b2)
    (h3 : key[4 * i + 3]? = some b3) : (keyWords key nk)[i]? = some (word b0 b1 b2 b3) := by
  simp [keyWords, hi, h0, h1, h2, h3]

/-- A round-key word reaches its state column byte by byte (R214). -/
theorem get_addRoundKey (s : Block) (rk : Vector Word 4) (r c : Fin 4) :
    (addRoundKey s rk).get r c = s.get r c ^^^ byteOf r rk[c] :=
  Block.get_of _ r c

/-- Column `c` of the input state is `DIN[c]` (R139). -/
theorem column_inputBlock (din : Vector Word 8) (c : Fin 4) : (inputBlock din).column c = din[c.val] :=
  word_ext fun r => by rw [byteOf_column, get_inputBlock]

/-- Settles O12: the layout of words by value and by bytes, for keys and for round keys. -/
theorem wordsArePackedBigEndian : Obligations.WordsArePackedBigEndian :=
  ⟨toNat_word, fun w k => toNat_byteOf k w, word_byteOf, fun _ _ _ _ _ _ _ => getElem?_keyWords, get_addRoundKey⟩

/-- Settles O14: a state is read at `r + 4c`, laid out there, and its columns are the words of `DIN` and `DOUT`. -/
theorem stateColumnsAreDataWords : Obligations.StateColumnsAreDataWords :=
  ⟨fun _ _ _ => rfl, Block.get_of, fun _ => Block.get_of _, column_inputBlock, fun s c => getElem_words s c c.isLt⟩

end Sys2Proof.Machine
end

section
/-! SUPPORT. Multiplication in GF(2^8) as a commutative, associative operation with unit 0x01 (R131), inverses (R133),
`xtime` (R132), the S-box by its definition (R134), and the three statements about them. -/

namespace Sys2Proof.Machine

/-- `xtime` on values: doubling, and reduction by 0x1B where bit 7 is set (R132). -/
theorem toNat_xtime (a : Byte) :
    (xtime a).toNat = if 128 ≤ a.toNat then (2 * a.toNat % 256) ^^^ 0x1B else 2 * a.toNat := by
  have hbit : a.getLsbD 7 = decide (128 ≤ a.toNat) := BitVec.msb_eq_decide a
  have hdouble : (a <<< 1).toNat = 2 * a.toNat % 256 := by
    rw [BitVec.toNat_shiftLeft, Nat.shiftLeft_eq, pow_one, mul_comm]
  by_cases h : 128 ≤ a.toNat
  · rw [xtime, hbit, decide_eq_true h, if_pos rfl, if_pos h, BitVec.toNat_xor, hdouble]
    rfl
  · rw [xtime, hbit, decide_eq_false h, if_neg Bool.false_ne_true, if_neg h, hdouble, Nat.mod_eq_of_lt (by omega)]

/-- `xtime` is multiplication by x (R132). -/
theorem xtime_eq_gmul_two (a : Byte) : xtime a = gmul 0x02 a :=
  linear_ext xtime_xor (gmul_xor_right 0x02) (by decide) a

theorem gmul_one_left (a : Byte) : gmul 0x01 a = a :=
  linear_ext (g := id) (gmul_xor_right 0x01) (fun _ _ => rfl) (by decide) a

/-- `•` commutes (R131): both sides are linear in both operands, so the products of powers of x decide. -/
theorem gmul_comm (a b : Byte) : gmul a b = gmul b a := by
  have hpow : ∀ i j : Fin 8, gmul (BitVec.twoPow 8 i.val) (BitVec.twoPow 8 j.val) =
      gmul (BitVec.twoPow 8 j.val) (BitVec.twoPow 8 i.val) := by
    decide +kernel
  refine linear_ext (f := (gmul · b)) (gmul_xor_left · · b) (gmul_xor_right b) (fun i => ?_) a
  exact linear_ext (g := (gmul · _)) (gmul_xor_right _) (gmul_xor_left · · _) (hpow i) b

/-- `•` is associative (R131): both sides are linear in the three operands, so the products of powers of x decide. -/
theorem gmul_assoc (a b c : Byte) : gmul (gmul a b) c = gmul a (gmul b c) := by
  have hpow : ∀ i j k : Fin 8,
      gmul (gmul (BitVec.twoPow 8 i.val) (BitVec.twoPow 8 j.val)) (BitVec.twoPow 8 k.val) =
        gmul (BitVec.twoPow 8 i.val) (gmul (BitVec.twoPow 8 j.val) (BitVec.twoPow 8 k.val)) := by
    decide +kernel
  refine linear_ext (f := fun a => gmul (gmul a b) c) (g := (gmul · (gmul b c)))
    (fun _ _ => by simp only [gmul_xor_left]) (gmul_xor_left · · _) (fun i => ?_) a
  refine linear_ext (f := fun b => gmul (gmul _ b) c) (g := fun b => gmul _ (gmul b c))
    (fun _ _ => by simp only [gmul_xor_left, gmul_xor_right])
    (fun _ _ => by simp only [gmul_xor_left, gmul_xor_right]) (fun j => ?_) b
  exact linear_ext (g := fun c => gmul _ (gmul _ c)) (gmul_xor_right _)
    (fun _ _ => by simp only [gmul_xor_right]) (hpow i j) c

/-- The inverse of the affine map of R134. It reads the multiplicative inverse of a byte off the S-box table. -/
def invAffine (b : Byte) : Byte := rotl8 b 1 ^^^ rotl8 b 3 ^^^ rotl8 b 6 ^^^ 0x05

theorem affine_invAffine : ∀ b : Byte, affine (invAffine b) = b := by
  decide +kernel

/-- Under the affine map, the entry of the table at a nonzero byte is an inverse of that byte. -/
theorem gmul_invAffine_sbox : ∀ a : Byte, a ≠ 0x00 → gmul a (invAffine (sbox a)) = 0x01 := by
  decide +kernel

/-- The search of `ginv` finds an inverse where there is one. -/
theorem gmul_ginv_of_gmul_eq_one {a b : Byte} (h : gmul a b = 0x01) : gmul a (ginv a) = 0x01 := by
  have hfound : (((List.range 256).map (BitVec.ofNat 8)).find? fun b => gmul a b == 0x01).isSome := by
    rw [List.find?_isSome]
    exact ⟨b, List.mem_map.2 ⟨b.toNat, List.mem_range.2 b.isLt, by simp⟩, beq_iff_eq.2 h⟩
  obtain ⟨c, hc⟩ := Option.isSome_iff_exists.1 hfound
  have hinv := List.find?_some hc
  rw [ginv, hc]
  exact beq_iff_eq.1 hinv

/-- Every nonzero byte has an inverse, and `ginv` is one (R133). -/
theorem gmul_ginv {a : Byte} (ha : a ≠ 0x00) : gmul a (ginv a) = 0x01 :=
  gmul_ginv_of_gmul_eq_one (gmul_invAffine_sbox a ha)

/-- A nonzero byte has no other inverse than `ginv` (R133). -/
theorem gmul_eq_one_iff {a b : Byte} (ha : a ≠ 0x00) : gmul a b = 0x01 ↔ b = ginv a := by
  constructor
  · intro h
    calc b = gmul 0x01 b := (gmul_one_left b).symm
      _ = gmul (gmul (ginv a) a) b := by rw [gmul_comm (ginv a), gmul_ginv ha]
      _ = gmul (ginv a) (gmul a b) := gmul_assoc ..
      _ = ginv a := by rw [h, gmul_comm, gmul_one_left]
  · rintro rfl
    exact gmul_ginv ha

theorem ginv_zero : ginv 0x00 = 0x00 := by
  decide +kernel

/-- The table of R135 is the function of R134. -/
theorem sbox_eq_sboxDefinition (a : Byte) : sbox a = sboxDefinition a := by
  by_cases ha : a = 0x00
  · rw [ha, sboxDefinition, ginv_zero]
    decide
  · rw [sboxDefinition, ← (gmul_eq_one_iff ha).1 (gmul_invAffine_sbox a ha), affine_invAffine]

theorem rotl8_eq_rotateLeft (b : Byte) {n : Nat} (hn : n < 8) : rotl8 b n = b.rotateLeft n := by
  rw [rotl8, BitVec.rotateLeft_def, Nat.mod_eq_of_lt hn]

/-- Settles O6: `xtime` by value and as a product, and the examples. -/
theorem xtimeDoublesInTheField : Obligations.XtimeDoublesInTheField :=
  ⟨toNat_xtime, xtime_eq_gmul_two, by decide⟩

/-- Settles O8: an inverse exists because the table holds it, and is unique because `•` is associative. -/
theorem inverseIsUnique : Obligations.InverseIsUnique := by
  have hexample : gmul 0x53 0xca = 0x01 := by decide
  exact ⟨fun _ _ => gmul_eq_one_iff, ginv_zero, ((gmul_eq_one_iff (by decide)).1 hexample).symm, hexample⟩

/-- Settles O9: undoing the affine map on an entry of the table gives the inverse. -/
theorem sboxTableIsTheDefinition : Obligations.SboxTableIsTheDefinition :=
  fun a => ⟨sbox_eq_sboxDefinition a, fun _ _ hn => rotl8_eq_rotateLeft _ (by omega)⟩

end Sys2Proof.Machine
end

section
/-! SUPPORT. Key expansion word by word (R174), the indices of the round constants (R137), and the statement about
them. -/

namespace Sys2Proof.Machine

theorem rc_of_two_le {i : Nat} (hi : 2 ≤ i) : rc i = xtime (rc (i - 1)) := by
  obtain ⟨n, rfl⟩ := Nat.exists_eq_add_of_le' hi
  rfl

section
variable (nk : Nat) (w : List Word)

@[simp] theorem length_expandWord (i : Nat) : (expandWord nk w i).length = w.length + 1 := by
  simp [expandWord]

/-- Making a word leaves the words before it as they are. -/
theorem getD_expandWord_of_lt (i : Nat) {j : Nat} (hj : j < w.length) :
    (expandWord nk w i).getD j 0 = w.getD j 0 := by
  simp [expandWord, List.getD, List.getElem?_append_left hj]

/-- The word that is made stands after the words so far (R174). -/
theorem getD_expandWord_length :
    (expandWord nk w w.length).getD w.length 0 =
      w.getD (w.length - nk) 0 ^^^ expansionTemp nk w.length (w.getD (w.length - 1) 0) := by
  simp [expandWord, List.getD]

/-- The first `n` words that key expansion makes: one more is one `expandWord` more. -/
theorem foldl_expandWord_succ (n : Nat) :
    (List.range' w.length (n + 1)).foldl (expandWord nk) w =
      expandWord nk ((List.range' w.length n).foldl (expandWord nk) w) (w.length + n) := by
  rw [List.range'_1_concat, List.foldl_append, List.foldl_cons, List.foldl_nil]

theorem length_foldl_expandWord (n : Nat) :
    ((List.range' w.length n).foldl (expandWord nk) w).length = w.length + n := by
  induction n with
  | zero => rfl
  | succ n ih => rw [foldl_expandWord_succ, length_expandWord, ih, Nat.add_assoc]

end

/-- Every word of a schedule, from the key's `nk` words on, is made by the recurrence of R174. -/
def ExpandsFrom (nk : Nat) (w : List Word) : Prop :=
  ∀ i, nk ≤ i → i < w.length → w.getD i 0 = w.getD (i - nk) 0 ^^^ expansionTemp nk i (w.getD (i - 1) 0)

/-- The next word is made by the recurrence, and the words before it stay. -/
theorem ExpandsFrom.expandWord {nk : Nat} {w : List Word} (h : ExpandsFrom nk w) (hnk : 0 < nk) :
    ExpandsFrom nk (expandWord nk w w.length) := by
  intro i hi hlt
  rw [length_expandWord] at hlt
  rw [getD_expandWord_of_lt nk w _ (j := i - nk) (by omega), getD_expandWord_of_lt nk w _ (j := i - 1) (by omega)]
  by_cases hlast : i = w.length
  · rw [hlast, getD_expandWord_length]
  · rw [getD_expandWord_of_lt nk w _ (by omega)]
    exact h i hi (by omega)

/-- The recurrence holds of every word made so far: of none at first, and each new word keeps it. -/
theorem expandsFrom_foldl_expandWord {w : List Word} (hw : 0 < w.length) (n : Nat) :
    ExpandsFrom w.length ((List.range' w.length n).foldl (expandWord w.length) w) := by
  induction n with
  | zero => exact fun i hi hlt => absurd hlt (Nat.not_lt.2 hi)
  | succ n ih =>
    have hlen := length_foldl_expandWord w.length w n
    rw [foldl_expandWord_succ, ← hlen]
    exact ih.expandWord hw

/-- The recurrence of key expansion (R174). -/
theorem expandsFrom_keyExpansion {key : List Word} {nk : Nat} (hnk : 0 < nk) (hkey : key.length = nk) (nr : Nat) :
    ExpandsFrom nk (keyExpansion key nk nr) := by
  subst hkey
  exact expandsFrom_foldl_expandWord hnk _

/-- A schedule has `4*(Nr+1)` words (R175), if the key has no more. -/
theorem length_keyExpansion {key : List Word} {nk nr : Nat} (hkey : key.length = nk) (hle : nk ≤ scheduleLength nr) :
    (keyExpansion key nk nr).length = scheduleLength nr := by
  subst hkey
  rw [keyExpansion, length_foldl_expandWord]
  omega

theorem expansionTemp_of_dvd {nk i : Nat} (h : i % nk = 0) (t : Word) :
    expansionTemp nk i t = subWord (rotWord t) ^^^ rcon (i / nk) :=
  if_pos h

theorem expansionTemp_of_not_dvd {nk i : Nat} (h : i % nk ≠ 0) (t : Word) :
    expansionTemp nk i t = if nk = 8 ∧ i % nk = 4 then subWord t else t :=
  if_neg h

/-- `top` is the largest index of a round constant that expansion from `nk` words uses (R137): the last multiple of `nk`
below the length of the schedule is `nk * top`. -/
theorem top_bounds {nk top : Nat} (h : (nk, top) ∈ [(4, 10), (6, 8), (8, 7)]) :
    0 < nk ∧ top = (scheduleLength (nk + 6) + nk - 1) / nk - 1 ∧ nk * top < scheduleLength (nk + 6) ∧
      scheduleLength (nk + 6) ≤ nk * (top + 1) := by
  simp only [List.mem_cons, Prod.mk.injEq, List.not_mem_nil, or_false] at h
  obtain ⟨rfl, rfl⟩ | ⟨rfl, rfl⟩ | ⟨rfl, rfl⟩ := h <;> decide

/-- Settles O11: the constants by their recurrence, the words by that of key expansion, and the indices by the bounds of
the largest one. -/
theorem roundConstants : Obligations.RoundConstants := by
  refine ⟨fun _ _ => rfl, rfl, fun _ => rc_of_two_le, by decide, fun nk top hsize => ?_⟩
  obtain ⟨hnk, htop, hlast, hend⟩ := top_bounds hsize
  refine ⟨htop, fun key hkey => ?_, fun i hi hlt => ⟨fun hdvd => ?_, ?_⟩, fun j hj hjt => ?_⟩
  · intro w i hi hlt
    have hlen : w.length = scheduleLength (nk + 6) := length_keyExpansion hkey (by unfold scheduleLength; omega)
    exact expandsFrom_keyExpansion hnk hkey _ i hi (hlen ▸ hlt)
  · have hle : i / nk < top + 1 := Nat.div_lt_of_lt_mul (hlt.trans_le hend)
    exact ⟨Nat.div_pos hi hnk, Nat.le_of_lt_succ hle, expansionTemp_of_dvd hdvd⟩
  · exact expansionTemp_of_not_dvd
  · have hdiv : nk * j / nk = j := Nat.mul_div_cancel_left j hnk
    refine ⟨nk * j, Nat.le_mul_of_pos_right nk hj, (Nat.mul_le_mul_left nk hjt).trans_lt hlast, fun t => ?_⟩
    rw [expansionTemp_of_dvd (Nat.mul_mod_right nk j), hdiv]

end Sys2Proof.Machine
end

section
/-! SUPPORT. The words of key expansion (R172-R174) and the decryption round keys (R176), and the three statements about
them. -/

namespace Sys2Proof.Machine

/-- `RotWord` on values: the first byte comes last (R172). -/
theorem toNat_rotWord (w : Word) : (rotWord w).toNat = w.toNat % 2 ^ 24 * 2 ^ 8 + w.toNat / 2 ^ 24 := by
  have hfirst : (w.extractLsb' 24 8).toNat = w.toNat / 2 ^ 24 := by
    rw [BitVec.extractLsb'_toNat, Nat.shiftRight_eq_div_pow]
    omega
  rw [rotWord, BitVec.toNat_append, ← Nat.shiftLeft_add_eq_or_of_lt (BitVec.isLt _), Nat.shiftLeft_eq, hfirst,
    BitVec.extractLsb'_toNat, Nat.shiftRight_zero]

@[simp] theorem rotWord_word (a0 a1 a2 a3 : Byte) : rotWord (word a0 a1 a2 a3) = word a1 a2 a3 a0 := by
  apply BitVec.eq_of_toNat_eq
  rw [toNat_rotWord, toNat_word, toNat_word]
  omega

@[simp] theorem subWord_word (a0 a1 a2 a3 : Byte) :
    subWord (word a0 a1 a2 a3) = word (sbox a0) (sbox a1) (sbox a2) (sbox a3) := by
  simp [subWord]

@[simp] theorem length_keyWords (key : List Byte) (nk : Nat) : (keyWords key nk).length = nk := by
  simp [keyWords]

/-- Key word `i` is put together from four key bytes (R138). -/
theorem getD_keyWords (key : List Byte) {nk i : Nat} (hi : i < nk) : (keyWords key nk).getD i 0 =
    word (key.getD (4 * i) 0) (key.getD (4 * i + 1) 0) (key.getD (4 * i + 2) 0) (key.getD (4 * i + 3) 0) := by
  simp [keyWords, List.getD, hi]

/-- Making any number of words leaves the words before them as they are. -/
theorem getD_foldl_expandWord_of_lt (nk : Nat) (is : List Nat) {w : List Word} {j : Nat} (hj : j < w.length) :
    (is.foldl (expandWord nk) w).getD j 0 = w.getD j 0 := by
  induction is generalizing w with
  | nil => rfl
  | cons i is ih =>
    rw [List.foldl_cons, ih (by rw [length_expandWord]; omega), getD_expandWord_of_lt nk w i hj]

/-- The first words of a schedule are the key's (R174). -/
theorem getD_keyExpansion_of_lt {key : List Word} {i : Nat} (hi : i < key.length) (nk nr : Nat) :
    (keyExpansion key nk nr).getD i 0 = key.getD i 0 :=
  getD_foldl_expandWord_of_lt nk _ hi

@[simp] theorem length_decKeys (w : List Word) (nr : Nat) : (decKeys w nr).length = scheduleLength nr := by
  simp [decKeys]

/-- A decryption round key is an encryption round key from the other end, its words in the same order (R176). -/
theorem getD_decKeys (w : List Word) {nr r : Nat} (hr : r ≤ nr) (c : Fin 4) :
    (decKeys w nr).getD (4 * r + c.val) 0 =
      if r = 0 ∨ r = nr then w.getD (4 * (nr - r) + c.val) 0
      else invMixColumnsWord (w.getD (4 * (nr - r) + c.val) 0) := by
  have hlt : 4 * r + c.val < scheduleLength nr := by unfold scheduleLength; omega
  have hround : (4 * r + c.val) / 4 = r := by omega
  have hcolumn : (4 * r + c.val) % 4 = c.val := by omega
  calc (decKeys w nr).getD (4 * r + c.val) 0
      = decKeyWord w nr (4 * r + c.val) := by simp [decKeys, List.getD, hlt]
    _ = _ := by simp only [decKeyWord, hround, hcolumn]

/-- Settles O20: `RotWord` by value, `SubWord` byte by byte, and the examples. -/
theorem rotWordAndSubWord : Obligations.RotWordAndSubWord :=
  ⟨rotWord_word, subWord_word, by decide⟩

/-- Settles O21: the key's words stay, and every word after them is made by the recurrence. -/
theorem keyExpansionRecurrence : Obligations.KeyExpansionRecurrence := by
  refine ⟨fun key nk hsize _ => ?_, by decide +kernel⟩
  have hkey : (keyWords key nk).length = nk := length_keyWords key nk
  have hlen := length_keyExpansion (nr := nk + 6) hkey (by unfold scheduleLength; omega)
  refine ⟨hlen, fun i hi => ?_, fun i hi hlt => ?_⟩
  · rw [getD_keyExpansion_of_lt (by omega), getD_keyWords key hi]
  · exact expandsFrom_keyExpansion (by omega) hkey _ i hi (hlen ▸ hlt)

/-- Settles O22: the decryption round keys word by word, and the example. -/
theorem decryptionRoundKeys : Obligations.DecryptionRoundKeys :=
  ⟨fun w nr _ c _ hr => ⟨length_decKeys w nr, getD_decKeys w hr c⟩, by decide +kernel⟩

end Sys2Proof.Machine
end

section
/-! SUPPORT. The round transforms byte by byte (R211-R214, R251, R252), and the four statements about them. -/

namespace Sys2Proof.Machine

/-- Byte `i` of a block lies in row `i mod 4` and column `i div 4` of the state (R139). -/
theorem getElem_eq_get (s : Block) (i : Fin 16) : s[i] = s.get ⟨i.val % 4, by omega⟩ ⟨i.val / 4, by omega⟩ := by
  simp only [Block.get, Nat.mod_add_div, Fin.getElem_fin]

section
variable (s : Block) (r c : Fin 4)

@[simp] theorem get_subBytes : (subBytes s).get r c = sbox (s.get r c) := Block.get_of _ r c

@[simp] theorem get_invSubBytes : (invSubBytes s).get r c = invSbox (s.get r c) := Block.get_of _ r c

@[simp] theorem get_shiftRows : (shiftRows s).get r c = s.get r (c + r) := Block.get_of _ r c

@[simp] theorem get_invShiftRows : (invShiftRows s).get r c = s.get r (c - r) := Block.get_of _ r c

@[simp] theorem get_mixColumns : (mixColumns s).get r c = mulRow mixMatrix (fun k => s.get k c) r := Block.get_of _ r c

end

/-- The table of R136 undoes that of R135 on every byte. -/
@[simp] theorem invSbox_sbox : ∀ a : Byte, invSbox (sbox a) = a := by
  decide +kernel

@[simp] theorem invSubBytes_subBytes (s : Block) : invSubBytes (subBytes s) = s :=
  Block.ext_get fun r c => by rw [get_invSubBytes, get_subBytes, invSbox_sbox]

/-- Rotating a row right by `r` and then left by `r` reads the byte that stood there (R252). -/
@[simp] theorem invShiftRows_shiftRows (s : Block) : invShiftRows (shiftRows s) = s :=
  Block.ext_get fun r c => by rw [get_invShiftRows, get_shiftRows, sub_add_cancel]

/-- The rotation to the right on numbers: `r` back from column `c`, mod 4 (R252). -/
theorem val_column_sub (c r : Fin 4) : (c - r).val = (c.val + 4 - r.val) % 4 := by
  rw [Fin.val_sub]
  omega

/-- Byte `r` of MixColumnsWord is row `r` of the matrix times the column (R213). -/
@[simp] theorem byteOf_mixColumnsWord (w : Word) (r : Fin 4) :
    byteOf r (mixColumnsWord w) = mulRow mixMatrix (fun k => byteOf k w) r := by
  unfold mixColumnsWord
  match r with
  | 0 => exact byteOf_word_zero ..
  | 1 => exact byteOf_word_one ..
  | 2 => exact byteOf_word_two ..
  | 3 => exact byteOf_word_three ..

/-- MixColumns works on each column word on its own (R213). -/
theorem column_mixColumns (s : Block) (c : Fin 4) : (mixColumns s).column c = mixColumnsWord (s.column c) :=
  word_ext fun r => by simp only [byteOf_column, get_mixColumns, byteOf_mixColumnsWord]

/-- The rows of the fixed matrix, with the unit factors gone (R213). -/
theorem mulRow_mixMatrix (a : Fin 4 → Byte) :
    mulRow mixMatrix a 0 = gmul 0x02 (a 0) ^^^ gmul 0x03 (a 1) ^^^ a 2 ^^^ a 3 ∧
    mulRow mixMatrix a 1 = a 0 ^^^ gmul 0x02 (a 1) ^^^ gmul 0x03 (a 2) ^^^ a 3 ∧
    mulRow mixMatrix a 2 = a 0 ^^^ a 1 ^^^ gmul 0x02 (a 2) ^^^ gmul 0x03 (a 3) ∧
    mulRow mixMatrix a 3 = gmul 0x03 (a 0) ^^^ a 1 ^^^ a 2 ^^^ gmul 0x02 (a 3) := by
  have hunit (b : Byte) : gmul 1#8 b = b := gmul_one_left b
  refine ⟨?_, ?_, ?_, ?_⟩ <;> simp [mulRow, mixMatrix, hunit]

/-- AddRoundKey works on each column word on its own (R214). -/
theorem column_addRoundKey (s : Block) (rk : Vector Word 4) (c : Fin 4) :
    (addRoundKey s rk).column c = s.column c ^^^ rk[c] :=
  word_ext fun r => by rw [byteOf_column, get_addRoundKey, byteOf_xor, byteOf_column]

/-- AddRoundKey is its own inverse (R214): `^` with the same byte cancels. -/
@[simp] theorem addRoundKey_addRoundKey (s : Block) (rk : Vector Word 4) : addRoundKey (addRoundKey s rk) rk = s :=
  Block.ext_get fun r c => by
    rw [get_addRoundKey, get_addRoundKey, BitVec.xor_assoc, BitVec.xor_self, BitVec.xor_zero]

/-- Settles O15: the byte at an index is that of its row and column, and the tables undo each other. -/
theorem subBytesActsByteByByte : Obligations.SubBytesActsByteByByte := by
  refine ⟨fun s i => ?_, invSubBytes_subBytes, by decide +kernel⟩
  rw [getElem_eq_get (subBytes s), getElem_eq_get (invSubBytes s), getElem_eq_get s]
  exact ⟨get_subBytes .., get_invSubBytes ..⟩

/-- Settles O16: the columns read by each row, as numbers mod 4, and the examples. -/
theorem shiftRowsRotatesRows : Obligations.ShiftRowsRotatesRows := by
  refine ⟨fun s r c hr hc => ⟨get_shiftRows s ⟨r, hr⟩ ⟨c, hc⟩, ?_⟩, invShiftRows_shiftRows, by decide +kernel⟩
  have hread := get_invShiftRows s ⟨r, hr⟩ ⟨c, hc⟩
  simp only [Block.get, val_column_sub] at hread
  exact hread

/-- Settles O17: the rows of the matrix on every column, MixColumnsWord byte by byte, and the examples. -/
theorem mixColumnsMultipliesColumns : Obligations.MixColumnsMultipliesColumns := by
  refine ⟨fun s c => ?_, fun a => (xtime_eq_gmul_two a).symm, by decide +kernel⟩
  obtain ⟨h0, h1, h2, h3⟩ := mulRow_mixMatrix (fun k => s.get k c)
  simp only [get_mixColumns]
  exact ⟨h0, h1, h2, h3, column_mixColumns s c⟩

/-- Settles O19: the round key's bytes, its words, and cancellation. -/
theorem addRoundKeyXorsColumns : Obligations.AddRoundKeyXorsColumns :=
  ⟨get_addRoundKey, column_addRoundKey, addRoundKey_addRoundKey⟩

end Sys2Proof.Machine
end

section
/-! SUPPORT. What ENC and DEC read (R217, R218, R258): four words of `DIN` and the words of a round-key file that the
schedule uses, and the statement about it. -/

namespace Sys2Proof.Machine

/-- The input block is made of `DIN[0..3]` alone (R210). -/
theorem inputBlock_congr {d e : Vector Word 8} (h : ∀ c : Fin 4, d[c.val] = e[c.val]) : inputBlock d = inputBlock e :=
  Block.ext_get fun r c => by rw [get_inputBlock, get_inputBlock, h c]

section
variable {f g : Vector Word 60} {nr : Nat} (h : ∀ r, r ≤ nr → roundKey f r = roundKey g r)
include h

/-- The rounds 1 to `Nr - 1` give the same on two files when each of them depends on its own round key alone. -/
theorem foldl_rounds_congr {round : Vector Word 60 → Block → Nat → Block}
    (hround : ∀ s r, roundKey f r = roundKey g r → round f s r = round g s r) (b : Block) :
    (List.range' 1 (nr - 1)).foldl (round f) b = (List.range' 1 (nr - 1)).foldl (round g) b := by
  refine List.foldl_ext _ _ _ fun s r hr => hround s r (h r ?_)
  rw [List.mem_range'_1] at hr
  omega

/-- The cipher reads round keys 0 to `Nr` of the file (R215). -/
theorem cipher_congr (b : Block) : cipher b f nr = cipher b g nr := by
  have hrounds := foldl_rounds_congr h (round := encRound) fun s r hr => by rw [encRound, encRound, hr]
  rw [cipher, cipher, h 0 nr.zero_le, h nr le_rfl, hrounds]

/-- The equivalent inverse cipher reads round keys 0 to `Nr` of the file (R254). -/
theorem eqInvCipher_congr (b : Block) : eqInvCipher b f nr = eqInvCipher b g nr := by
  have hrounds := foldl_rounds_congr h (round := decRound) fun s r hr => by rw [decRound, decRound, hr]
  rw [eqInvCipher, eqInvCipher, h 0 nr.zero_le, h nr le_rfl, hrounds]

end

/-- A schedule of a legal round count fits the file (R175), so files that agree on its words agree on its round
keys. -/
theorem roundKey_congr_of_legalRounds {f g : Vector Word 60} {nr : BitVec 4} (hn : legalRounds nr)
    (h : ∀ i : Fin 60, i.val < 4 * (nr.toNat + 1) → f[i] = g[i]) (r : Nat) (hr : r ≤ nr.toNat) :
    roundKey f r = roundKey g r := by
  have hmax : nr.toNat ≤ 14 := by obtain rfl | rfl | rfl := hn <;> decide
  refine roundKey_congr hr fun i hi => ?_
  have hlt : i < 60 := by omega
  rw [fileWord_of_lt f i hlt, fileWord_of_lt g i hlt]
  exact h ⟨i, hlt⟩ hi

section
variable {s : State} (hk : s.keyv = true) (hn : legalRounds s.nr)
include hk hn

/-- ENC of 16 bytes under a loaded schedule succeeds (R210). -/
theorem exec_enc_of_loaded :
    exec (.enc 16) s = .next (s.writeDout (cipher (inputBlock s.din) s.ek s.nr.toNat)).finish := by
  simp [exec, execEnc, hk, hn]

/-- DEC of 16 bytes under a loaded schedule succeeds (R250). -/
theorem exec_dec_of_loaded :
    exec (.dec 16) s = .next (s.writeDout (eqInvCipher (inputBlock s.din) s.dk s.nr.toNat)).finish := by
  simp [exec, execDec, hk, hn]

end

/-- Settles O30: both commands succeed in both states, on the same block and the same round keys. -/
theorem blockCommandsDependOnKeyAndBlockOnly : Obligations.BlockCommandsDependOnKeyAndBlockOnly := by
  intro s t hs ht hn hnr hdin
  have hblock := inputBlock_congr hdin
  have hnt : legalRounds t.nr := hnr ▸ hn
  refine ⟨fun hek => ?_, fun hdk => ?_⟩
  · refine ⟨_, _, exec_enc_of_loaded hs hn, exec_enc_of_loaded ht hnt, ?_⟩
    simp only [State.finish_dout, State.writeDout_dout]
    rw [← hblock, ← hnr, cipher_congr (roundKey_congr_of_legalRounds hn hek)]
  · refine ⟨_, _, exec_dec_of_loaded hs hn, exec_dec_of_loaded ht hnt, ?_⟩
    simp only [State.finish_dout, State.writeDout_dout]
    rw [← hblock, ← hnr, eqInvCipher_congr (roundKey_congr_of_legalRounds hn hdk)]

end Sys2Proof.Machine
end

section
/-! SUPPORT. InvMixColumns (R253): its bytes and columns, that it undoes MixColumns because its matrix is the inverse of
the fixed one, its linearity over `^`, and the statement about it. -/

namespace Sys2Proof.Machine

@[simp] theorem get_invMixColumns (s : Block) (r c : Fin 4) :
    (invMixColumns s).get r c = mulRow invMixMatrix (fun k => s.get k c) r :=
  Block.get_of _ r c

/-- The byte in row `r` of a word put together from the rows of a column (R138). -/
theorem byteOf_word (a : Fin 4 → Byte) (r : Fin 4) : byteOf r (word (a 0) (a 1) (a 2) (a 3)) = a r := by
  match r with
  | 0 => exact byteOf_word_zero ..
  | 1 => exact byteOf_word_one ..
  | 2 => exact byteOf_word_two ..
  | 3 => exact byteOf_word_three ..

/-- Byte `r` of InvMixColumnsWord is row `r` of the inverse matrix times the column (R253). -/
@[simp] theorem byteOf_invMixColumnsWord (w : Word) (r : Fin 4) :
    byteOf r (invMixColumnsWord w) = mulRow invMixMatrix (fun k => byteOf k w) r :=
  byteOf_word _ r

/-- InvMixColumns works on each column word on its own (R253). -/
theorem column_invMixColumns (s : Block) (c : Fin 4) : (invMixColumns s).column c = invMixColumnsWord (s.column c) :=
  word_ext fun r => by simp only [byteOf_column, get_invMixColumns, byteOf_invMixColumnsWord]

/-- The product of two 4x4 matrices over GF(2^8): row `r` of the first times each column of the second. -/
def mulMatrix (m n : Vector (Vector Byte 4) 4) : Vector (Vector Byte 4) 4 :=
  Vector.ofFn fun r => Vector.ofFn fun c => mulRow m (fun k => n[k][c]) r

/-- A column times one matrix and then another is the column times their product. -/
theorem mulRow_mulRow (m n : Vector (Vector Byte 4) 4) (a : Fin 4 → Byte) (r : Fin 4) :
    mulRow m (mulRow n a) r = mulRow (mulMatrix m n) a r := by
  simp only [mulRow, mulMatrix, Fin.getElem_fin, Vector.getElem_ofFn, gmul_xor_left, gmul_xor_right, gmul_assoc]
  ac_rfl

/-- The 4x4 unit matrix over GF(2^8). -/
def unitMatrix : Vector (Vector Byte 4) 4 :=
  Vector.ofFn fun r => Vector.ofFn fun c => if r = c then 0x01 else 0x00

/-- A column times the unit matrix is that column. -/
theorem mulRow_unitMatrix (a : Fin 4 → Byte) (r : Fin 4) : mulRow unitMatrix a r = a r := by
  have hzero (b : Byte) : gmul 0#8 b = 0#8 := by rw [gmul_comm]; rfl
  have hunit (b : Byte) : gmul 1#8 b = b := gmul_one_left b
  match r with
  | 0 | 1 | 2 | 3 => simp [mulRow, unitMatrix, hzero, hunit]

/-- The matrix of InvMixColumns is the inverse of the MixColumns matrix (R253). -/
theorem mulMatrix_invMixMatrix_mixMatrix : mulMatrix invMixMatrix mixMatrix = unitMatrix := by
  decide +kernel

@[simp] theorem invMixColumns_mixColumns (s : Block) : invMixColumns (mixColumns s) = s :=
  Block.ext_get fun r c => by
    simp only [get_invMixColumns, get_mixColumns]
    rw [mulRow_mulRow, mulMatrix_invMixMatrix_mixMatrix, mulRow_unitMatrix]

/-- Settles O18: the rows of the inverse matrix on every column, its product with the fixed matrix, and linearity. -/
theorem invMixColumnsUndoesMixColumns : Obligations.InvMixColumnsUndoesMixColumns := by
  refine ⟨fun s c => ?_, invMixColumns_mixColumns, fun s t => Block.ext_get fun r c => ?_, by decide +kernel⟩
  · have hrow (r : Fin 4) := get_invMixColumns s r c
    exact ⟨hrow 0, hrow 1, hrow 2, hrow 3, column_invMixColumns s c⟩
  · simp only [get_invMixColumns, Block.get_of, mulRow_xor]

end Sys2Proof.Machine
end

section
/-! SUPPORT. The plain inverse cipher (R256) is the equivalent one (R254): a round of either does the same, since
InvSubBytes commutes with InvShiftRows, and InvMixColumns after a round key is that of the state and of the key. -/

namespace Sys2Proof.Machine

/-- InvSubBytes replaces each byte where it stands, so the rows may be rotated before or after it. -/
theorem invSubBytes_invShiftRows (s : Block) : invSubBytes (invShiftRows s) = invShiftRows (invSubBytes s) :=
  Block.ext_get fun r c => by simp only [get_invSubBytes, get_invShiftRows]

/-- InvMixColumns passes through AddRoundKey, and through the round key on the way (R176, R253). -/
theorem invMixColumns_addRoundKey (s : Block) (rk : Vector Word 4) :
    invMixColumns (addRoundKey s rk) = addRoundKey (invMixColumns s) (rk.map invMixColumnsWord) :=
  Block.ext_get fun r c => by
    simp only [get_invMixColumns, get_addRoundKey, mulRow_xor, Fin.getElem_fin, Vector.getElem_map,
      byteOf_invMixColumnsWord]

section
variable {ek dk : Vector Word 60} {nr : Nat} (hfit : nr ≤ 14)
  (hdk : ∀ i : Fin 60, i.val < 4 * (nr + 1) → dk[i] = decKeyWord ek.toList nr i.val)
include hfit hdk

/-- The word in round `r` and column `c` of a file of decryption keys (R176). -/
theorem fileWord_decKeys {r : Nat} (hr : r ≤ nr) (c : Fin 4) : fileWord dk (4 * r + c.val) =
    if r = 0 ∨ r = nr then fileWord ek (4 * (nr - r) + c.val)
    else invMixColumnsWord (fileWord ek (4 * (nr - r) + c.val)) := by
  have hused : 4 * r + c.val < 4 * (nr + 1) := by omega
  have hlt : 4 * r + c.val < 60 := by omega
  calc fileWord dk (4 * r + c.val)
      = decKeyWord ek.toList nr (4 * r + c.val) := (fileWord_of_lt dk _ hlt).trans (hdk ⟨_, hlt⟩ hused)
    _ = (decKeys ek.toList nr).getD (4 * r + c.val) 0 := by simp [decKeys, List.getD, scheduleLength, hused]
    _ = _ := getD_decKeys ek.toList hr c

/-- The first and the last decryption round key are the last and the first encryption round key (R176). -/
theorem roundKey_decKeys_outer {r : Nat} (hr : r = 0 ∨ r = nr) : roundKey dk r = roundKey ek (nr - r) :=
  Vector.ext fun c hc => by
    rw [getElem_roundKey _ _ _ hc, getElem_roundKey _ _ _ hc,
      fileWord_decKeys hfit hdk (by omega) ⟨c, hc⟩, if_pos hr]

/-- Every other decryption round key is InvMixColumns of an encryption round key (R176). -/
theorem roundKey_decKeys_inner {r : Nat} (h0 : 0 < r) (hr : r < nr) :
    roundKey dk r = (roundKey ek (nr - r)).map invMixColumnsWord :=
  Vector.ext fun c hc => by
    rw [Vector.getElem_map, getElem_roundKey _ _ _ hc, getElem_roundKey _ _ _ hc,
      fileWord_decKeys hfit hdk hr.le ⟨c, hc⟩, if_neg (by omega)]

/-- A full round of the equivalent inverse cipher is the full round of the plain one from the other end. -/
theorem decRound_eq_plainDecRound {r : Nat} (h0 : 0 < r) (hr : r < nr) (s : Block) :
    decRound dk s r = plainDecRound ek s (nr - r) := by
  rw [decRound, plainDecRound, roundKey_decKeys_inner hfit hdk h0 hr, invMixColumns_addRoundKey,
    invSubBytes_invShiftRows]

end

/-- Rounds 1 to `nr - 1` counted down are `nr - r` for the rounds `r` counted up. -/
theorem reverse_rounds (nr : Nat) : (List.range' 1 (nr - 1)).reverse = (List.range' 1 (nr - 1)).map (nr - ·) := by
  rw [List.reverse_range', List.range'_eq_map_range, List.map_map]
  refine List.map_congr_left fun i hi => ?_
  rw [List.mem_range] at hi
  simp only [Function.comp_apply]
  omega

/-- Settles O34: the first and last steps add the same round keys, and the rounds between them agree one by one. -/
theorem plainInverseCipherAgrees : Obligations.PlainInverseCipherAgrees := by
  intro ek dk nr hnr hdk b
  have hfit : nr ≤ 14 := by omega
  have hfirst : roundKey dk 0 = roundKey ek nr := roundKey_decKeys_outer hfit hdk (.inl rfl)
  have hlast : roundKey dk nr = roundKey ek 0 := by
    rw [roundKey_decKeys_outer hfit hdk (.inr rfl), Nat.sub_self]
  have hrounds (s : Block) : (List.range' 1 (nr - 1)).foldl (decRound dk) s =
      (List.range' 1 (nr - 1)).reverse.foldl (plainDecRound ek) s := by
    rw [reverse_rounds, List.foldl_map]
    refine List.foldl_ext _ _ _ fun s r hr => ?_
    rw [List.mem_range'_1] at hr
    exact decRound_eq_plainDecRound hfit hdk (by omega) (by omega) s
  rw [eqInvCipher, invCipher, hfirst, hlast, hrounds, invSubBytes_invShiftRows]

end Sys2Proof.Machine
end

section
/-! SUPPORT. The code with which a command ends, in every case (R306), and what it changes when that code is an error
(R307), and the two statements about them. -/

namespace Sys2Proof.Machine

/-- The outcome `o` ends a command of state `s` with the code `e`, and an error is its whole effect (R307). -/
def State.EndsWith (s : State) (e : ErrCode) (o : Host.Outcome State Fault Refusal) : Prop :=
  ∃ t, o = .next t ∧ t.err = e ∧ (e ≠ .ok → t = s.raise e)

theorem State.endsWith_raise (s : State) (e : ErrCode) : s.EndsWith e (.next (s.raise e)) :=
  ⟨_, rfl, State.raise_err s e, fun _ => rfl⟩

theorem State.endsWith_finish (s u : State) : s.EndsWith .ok (.next u.finish) :=
  ⟨_, rfl, State.finish_err u, fun h => absurd rfl h⟩

/-- The size check of INIT as R306 writes it and as the machine makes it (R170). -/
theorem not_mem_keySizes_iff {klen : Nat} : klen ∉ [16, 24, 32] ↔ klen ≠ 16 ∧ klen ≠ 24 ∧ klen ≠ 32 := by
  simp

theorem execInit_endsWith (klen dlen : Nat) (s : State) :
    s.EndsWith (commandResult (.command (.init klen dlen)) s.keyv) (execInit klen dlen s) := by
  rw [commandResult]
  obtain ⟨hk, he⟩ | ⟨hk, hd, he⟩ | ⟨hk, hd, w, -, he⟩ := execInit_cases klen dlen s
  · rw [he, if_pos (not_mem_keySizes_iff.1 hk)]
    exact s.endsWith_raise _
  · rw [he, if_neg (mt not_mem_keySizes_iff.2 (not_not.2 hk)), if_pos hd]
    exact s.endsWith_raise _
  · rw [he, if_neg (mt not_mem_keySizes_iff.2 (not_not.2 hk)), if_neg (not_not.2 hd)]
    exact s.endsWith_finish _

section
variable {i : Instr} {dlen : Nat} (hi : i = .enc dlen ∨ i = .dec dlen)
include hi

/-- ENC and DEC have the same causes of failure (R306). -/
theorem commandResult_of_blockCommand (keyv : Bool) :
    commandResult (.command i) keyv =
      if dlen ≠ 16 then .invalidBlockSize else if keyv = false then .keyNotLoaded else .ok := by
  obtain rfl | rfl := hi <;> cases keyv <;> rfl

/-- What ENC and DEC have in common: they fail on the block size, or else on the missing key, or they finish. -/
theorem exec_blockCommand_cases (s : State) :
    (dlen ≠ 16 ∧ exec i s = .next (s.raise .invalidBlockSize)) ∨
    (dlen = 16 ∧ s.keyv = false ∧ exec i s = .next (s.raise .keyNotLoaded)) ∨
    (dlen = 16 ∧ s.keyv = true ∧ ∃ u : State, exec i s = .next u.finish) := by
  obtain rfl | rfl := hi
  · refine (execEnc_cases dlen s).imp_right (.imp_right ?_)
    rintro (⟨hd, hk, -, he⟩ | ⟨hd, hk, -, he⟩) <;> exact ⟨hd, hk, _, he⟩
  · refine (execDec_cases dlen s).imp_right (.imp_right ?_)
    rintro (⟨hd, hk, -, he⟩ | ⟨hd, hk, -, he⟩) <;> exact ⟨hd, hk, _, he⟩

theorem exec_blockCommand_endsWith (s : State) : s.EndsWith (commandResult (.command i) s.keyv) (exec i s) := by
  rw [commandResult_of_blockCommand hi]
  obtain ⟨hd, he⟩ | ⟨hd, hk, he⟩ | ⟨hd, hk, u, he⟩ := exec_blockCommand_cases hi s
  · rw [he, if_pos hd]
    exact s.endsWith_raise _
  · rw [he, if_neg (not_not.2 hd), if_pos hk]
    exact s.endsWith_raise _
  · rw [he, if_neg (not_not.2 hd), if_neg (by simp [hk])]
    exact s.endsWith_finish u

end

/-- Every command ends with the code of R306. -/
theorem exec_endsWith (i : Instr) (s : State) : s.EndsWith (commandResult (.command i) s.keyv) (exec i s) := by
  cases i with
  | init klen dlen => exact execInit_endsWith klen dlen s
  | enc dlen => exact exec_blockCommand_endsWith (.inl rfl) s
  | dec dlen => exact exec_blockCommand_endsWith (.inr rfl) s

/-- The completion of a legal word runs its command (R113). -/
theorem complete_of_command {s : State} {i : Instr} (h : decode s.cmd = .command i) : complete s = exec i s := by
  rw [complete, h]

/-- Every completion ends with the code of R306, read off `CMD` and `KEYV`. -/
theorem complete_endsWith (s : State) : s.EndsWith (commandResult (decode s.cmd) s.keyv) (complete s) := by
  cases hd : decode s.cmd with
  | illegal why =>
    rw [complete_of_illegal hd]
    exact s.endsWith_raise .illegalCommand
  | command i =>
    rw [complete_of_command hd]
    exact exec_endsWith i s

/-- Settles O26: a completion that ends with an error raises it, and nothing more. -/
theorem failedCommandChangesOnlyTheResult : Obligations.FailedCommandChangesOnlyTheResult := by
  rintro s d rfl hfail
  obtain ⟨t, hnext, -, hraise⟩ := complete_endsWith s
  rw [hnext, hraise hfail]
  rfl

/-- Settles O27: the code of a completion is that of R306, here for each kind of word. -/
theorem completionReportsTheFirstCause : Obligations.CompletionReportsTheFirstCause := by
  intro s
  obtain ⟨t, hnext, herr, -⟩ := complete_endsWith s
  refine ⟨t, hnext, ?illegal, ?init, ?block, rfl, Nat.lt_succ_of_le t.err.code_le⟩
  case illegal =>
    rintro ⟨why, hd⟩
    rw [herr, hd, commandResult]
  case init =>
    intro klen dlen hd
    rw [herr, hd, commandResult]
  case block =>
    rintro dlen (hd | hd)
    · rw [herr, hd, commandResult_of_blockCommand (.inl rfl)]
    · rw [herr, hd, commandResult_of_blockCommand (.inr rfl)]

end Sys2Proof.Machine
end

section
/-! SUPPORT. The cipher and the plain inverse cipher undo each other round by round, and the statement about the cipher
and the equivalent inverse cipher over the decryption keys (R255). -/

namespace Sys2Proof.Machine

/-- The table of R135 undoes that of R136 on every byte. -/
@[simp] theorem sbox_invSbox : ∀ a : Byte, sbox (invSbox a) = a := by
  decide +kernel

@[simp] theorem subBytes_invSubBytes (s : Block) : subBytes (invSubBytes s) = s :=
  Block.ext_get fun r c => by rw [get_subBytes, get_invSubBytes, sbox_invSbox]

/-- Rotating a row left by `r` and then right by `r` reads the byte that stood there. -/
@[simp] theorem shiftRows_invShiftRows (s : Block) : shiftRows (invShiftRows s) = s :=
  Block.ext_get fun r c => by rw [get_shiftRows, get_invShiftRows, add_sub_cancel_right]

/-- The matrix of InvMixColumns is a right inverse of the MixColumns matrix too. -/
theorem mulMatrix_mixMatrix_invMixMatrix : mulMatrix mixMatrix invMixMatrix = unitMatrix := by
  decide +kernel

@[simp] theorem mixColumns_invMixColumns (s : Block) : mixColumns (invMixColumns s) = s :=
  Block.ext_get fun r c => by
    simp only [get_mixColumns, get_invMixColumns]
    rw [mulRow_mulRow, mulMatrix_mixMatrix_invMixMatrix, mulRow_unitMatrix]

section
variable (ek : Vector Word 60)

/-- A full round of the plain inverse cipher takes a full round of the cipher back. The rounds of the two are cut apart at
different places, so what comes back is the state behind that round's SubBytes and ShiftRows. -/
theorem plainDecRound_encRound (s : Block) (r : Nat) :
    plainDecRound ek (shiftRows (subBytes (encRound ek s r))) r = shiftRows (subBytes s) := by
  simp [plainDecRound, encRound]

/-- A full round of the cipher takes a full round of the plain inverse cipher back, up to InvShiftRows and InvSubBytes. -/
theorem encRound_plainDecRound (s : Block) (r : Nat) :
    encRound ek (invSubBytes (invShiftRows (plainDecRound ek s r))) r = invSubBytes (invShiftRows s) := by
  simp [plainDecRound, encRound]

end

/-- Rounds `back`, taken in reverse order, undo the rounds `forth` up to the step `p`, if they do so one round at a
time. -/
theorem foldl_reverse_foldl {forth back : Block → Nat → Block} {p : Block → Block}
    (h : ∀ s r, back (p (forth s r)) r = p s) (rounds : List Nat) (s : Block) :
    rounds.reverse.foldl back (p (rounds.foldl forth s)) = p s := by
  induction rounds generalizing s with
  | nil => rfl
  | cons r rounds ih =>
    rw [List.foldl_cons, List.reverse_cons, List.foldl_append, ih, List.foldl_cons, List.foldl_nil, h]

@[simp] theorem invCipher_cipher (b : Block) (ek : Vector Word 60) (nr : Nat) : invCipher (cipher b ek nr) ek nr = b := by
  have hrounds := foldl_reverse_foldl (p := fun s => shiftRows (subBytes s)) (plainDecRound_encRound ek)
    (List.range' 1 (nr - 1))
  simp [invCipher, cipher, hrounds, -List.foldl_reverse]

@[simp] theorem cipher_invCipher (b : Block) (ek : Vector Word 60) (nr : Nat) : cipher (invCipher b ek nr) ek nr = b := by
  have hrounds := foldl_reverse_foldl (p := fun s => invSubBytes (invShiftRows s)) (encRound_plainDecRound ek)
    (List.range' 1 (nr - 1)).reverse
  rw [List.reverse_reverse] at hrounds
  simp [invCipher, cipher, hrounds, -List.foldl_reverse]

section
variable {ek dk : Vector Word 60} {nr : Nat} (hnr : nr = 10 ∨ nr = 12 ∨ nr = 14)
  (hdk : ∀ i : Fin 60, i.val < 4 * (nr + 1) → dk[i] = decKeyWord ek.toList nr i.val) (b : Block)
include hnr hdk

/-- Decryption under the decryption keys of a file undoes encryption under that file (R255). -/
theorem eqInvCipher_cipher : eqInvCipher (cipher b ek nr) dk nr = b := by
  rw [plainInverseCipherAgrees ek dk nr hnr hdk, invCipher_cipher]

/-- Encryption under a file undoes decryption under its decryption keys (R255). -/
theorem cipher_eqInvCipher : cipher (eqInvCipher b dk nr) ek nr = b := by
  rw [plainInverseCipherAgrees ek dk nr hnr hdk, cipher_invCipher]

end

/-- Word `i` of a file made from a list, within the list. -/
theorem fileWord_fileOf {words : List Word} {i : Nat} (hi : i < words.length) (h60 : i < 60) (free : Nat → Word) :
    fileWord (fileOf words free) i = words.getD i 0 := by
  rw [fileWord_of_lt _ _ h60, getElem_fileOf _ _ _ h60, if_pos hi]

/-- A decryption key word depends on the words of the schedule alone. -/
theorem decKeyWord_congr {v w : List Word} {nr i : Nat} (h : ∀ j, j < scheduleLength nr → v.getD j 0 = w.getD j 0)
    (hi : i < scheduleLength nr) : decKeyWord v nr i = decKeyWord w nr i := by
  have hlt : 4 * (nr - i / 4) + i % 4 < scheduleLength nr := by unfold scheduleLength at *; omega
  simp only [decKeyWord, h _ hlt]

/-- The word of `DecKeys` at an index is the one made for it (R176). -/
theorem getD_decKeys_of_lt (w : List Word) {nr i : Nat} (hi : i < scheduleLength nr) :
    (decKeys w nr).getD i 0 = decKeyWord w nr i := by
  simp [decKeys, List.getD, hi]

/-- The file of a schedule's decryption keys holds the decryption keys of the schedule's file, whatever the words beyond
the schedule hold. -/
theorem getElem_fileOf_decKeys {w : List Word} {nr : Nat} (hw : w.length = scheduleLength nr) (hfit : nr ≤ 14)
    (freeE freeD : Nat → Word) (i : Fin 60) (hi : i.val < 4 * (nr + 1)) :
    (fileOf (decKeys w nr) freeD)[i] = decKeyWord (fileOf w freeE).toList nr i.val := by
  have hlen : i.val < (decKeys w nr).length := by rw [length_decKeys]; exact hi
  rw [Fin.getElem_fin, getElem_fileOf, if_pos hlen, getD_decKeys_of_lt w hi]
  refine decKeyWord_congr (fun j hj => (fileWord_fileOf (hw ▸ hj) ?_ freeE).symm) hi
  unfold scheduleLength at hj
  omega

/-- Settles O32: the equivalent inverse cipher is the plain one, whose rounds undo those of the cipher one by one. -/
theorem decryptionInvertsEncryption : Obligations.DecryptionInvertsEncryption := by
  intro key nk hnk hkey freeE freeD b nr w ek dk
  have hnr : nr = 10 ∨ nr = 12 ∨ nr = 14 := by omega
  have hlen : w.length = scheduleLength nr := length_keyExpansion hkey (by unfold scheduleLength; omega)
  have hdk := getElem_fileOf_decKeys hlen (by omega) freeE freeD
  exact ⟨eqInvCipher_cipher hnr hdk b, cipher_eqInvCipher hnr hdk b⟩

end Sys2Proof.Machine
end

section
/-! SUPPORT. What INIT loads (R170, R174, R176) and what ENC and DEC write under a loaded schedule (R210, R250), and the
seven statements about the three commands. -/

namespace Sys2Proof.Machine

/-- The schedule that INIT makes of the key in `DIN` (R170, R174). -/
def initSchedule (din : Vector Word 8) (klen : Nat) : List Word :=
  keyExpansion (keyWords (keyBytes din klen) (keyWordCount klen)) (keyWordCount klen) (roundCount klen)

/-- The state in which INIT with right lengths ends (R170, R113). -/
def State.loadKey (s : State) (klen : Nat) : State :=
  (s.loadSchedule (initSchedule s.din klen) (decKeys (initSchedule s.din klen) (roundCount klen))
    (roundCount klen)).finish

theorem length_initSchedule (din : Vector Word 8) (klen : Nat) :
    (initSchedule din klen).length = scheduleLength (roundCount klen) :=
  length_keyExpansion (length_keyWords _ _) (by unfold scheduleLength roundCount; omega)

section
variable (s : State) (klen : Nat)

@[simp] theorem State.loadKey_keyv : (s.loadKey klen).keyv = true := rfl

@[simp] theorem State.loadKey_nr : (s.loadKey klen).nr = BitVec.ofNat 4 (roundCount klen) := rfl

/-- `EK` holds the schedule in the words that it uses (R170). -/
theorem State.loadKey_ek (i : Fin 60) (hi : i.val < 4 * (roundCount klen + 1)) :
    (s.loadKey klen).ek[i] = (initSchedule s.din klen).getD i.val 0 := by
  rw [State.loadKey, State.finish_ek, State.loadSchedule_ek, Fin.getElem_fin, getElem_fileOf, length_initSchedule]
  exact if_pos hi

/-- `DK` holds the decryption keys in the words that the schedule uses (R178). -/
theorem State.loadKey_dk (i : Fin 60) (hi : i.val < 4 * (roundCount klen + 1)) :
    (s.loadKey klen).dk[i] = (decKeys (initSchedule s.din klen) (roundCount klen)).getD i.val 0 := by
  rw [State.loadKey, State.finish_dk, State.loadSchedule_dk, Fin.getElem_fin, getElem_fileOf, length_decKeys]
  exact if_pos hi

end

section
variable {klen : Nat} (hklen : klen = 16 ∨ klen = 24 ∨ klen = 32)
include hklen

/-- A legal key size gives a legal round count (R171), and so a schedule that fits the file (R175). -/
theorem roundCount_legal : roundCount klen = 10 ∨ roundCount klen = 12 ∨ roundCount klen = 14 := by
  obtain rfl | rfl | rfl := hklen <;> decide

/-- INIT with right lengths loads the key (R170). -/
theorem exec_init_of_keySize (s : State) : exec (.init klen klen) s = .next (s.loadKey klen) := by
  obtain ⟨hk, -⟩ | ⟨-, hd, -⟩ | ⟨-, -, w, hw, he⟩ := execInit_cases klen klen s
  · exact absurd (by simpa using hklen) hk
  · exact absurd rfl hd
  · rw [exec, he, hw, State.loadKey, initSchedule]

/-- The schedule is the expansion of the first words of `DIN` (R76). -/
theorem initSchedule_eq (din : Vector Word 8) :
    initSchedule din klen = keyExpansion (din.toList.take (klen / 4)) (klen / 4) (klen / 4 + 6) := by
  have hbytes : klen = 4 * (klen / 4) := by omega
  have hkey := keyWords_keyBytes din (nk := klen / 4) (by omega)
  rw [← hbytes] at hkey
  rw [initSchedule, roundCount, keyWordCount, hkey]

/-- The schedule is a function of the key words (R180). -/
theorem initSchedule_congr {d e : Vector Word 8} (h : ∀ k : Fin 8, k.val < klen / 4 → d[k] = e[k]) :
    initSchedule d klen = initSchedule e klen := by
  have hkey : d.toList.take (klen / 4) = e.toList.take (klen / 4) := by
    refine List.ext_getElem (by simp) fun i hi _ => ?_
    simp only [List.length_take, Vector.length_toList, lt_min_iff] at hi
    simpa using h ⟨i, hi.2⟩ hi.1
  rw [initSchedule_eq hklen, initSchedule_eq hklen, hkey]

section
variable (s : State)

/-- `NR` has room for every legal round count (R36). -/
theorem State.toNat_loadKey_nr : (s.loadKey klen).nr.toNat = roundCount klen := by
  obtain h | h | h := roundCount_legal hklen <;> rw [State.loadKey_nr, h] <;> rfl

theorem State.legalRounds_loadKey : legalRounds (s.loadKey klen).nr := by
  obtain h | h | h := roundCount_legal hklen <;> rw [State.loadKey_nr, h] <;> decide

/-- `DK` holds the decryption keys of `EK` (R176). -/
theorem State.loadKey_inverted (i : Fin 60) (hi : i.val < 4 * (roundCount klen + 1)) :
    (s.loadKey klen).dk[i] = decKeyWord (s.loadKey klen).ek.toList (roundCount klen) i.val := by
  have hfit : roundCount klen ≤ 14 := by have := roundCount_legal hklen; omega
  rw [State.loadKey, State.finish_dk, State.finish_ek, State.loadSchedule_dk, State.loadSchedule_ek]
  exact getElem_fileOf_decKeys (length_initSchedule s.din klen) hfit _ _ i hi

end

end

/-- The input block is the block whose columns stand in `DIN[0..3]` (R139). -/
theorem inputBlock_eq {din : Vector Word 8} {b : Block} (h : ∀ c : Fin 4, din[c.val] = b.words[c]) :
    inputBlock din = b :=
  Block.ext_get fun r c => by rw [get_inputBlock, h c, Fin.getElem_fin, getElem_words, byteOf_column]

/-- Two blocks with the same column words are equal (R139). -/
theorem Block.words_injective {b c : Block} (h : b.words.toList = c.words.toList) : b = c := by
  have hwords : b.words = c.words := Vector.toList_inj.1 h
  refine Block.ext_get fun r k => ?_
  have hcolumn : b.column k = c.column k := by
    rw [← getElem_words b k k.isLt, ← getElem_words c k k.isLt, hwords]
  rw [← byteOf_column, hcolumn, byteOf_column]

/-- The round trip of R255 from a state with a loaded schedule and its decryption keys. -/
theorem exec_dec_exec_enc {t : State} (hk : t.keyv = true) (hn : legalRounds t.nr)
    (hdk : ∀ i : Fin 60, i.val < 4 * (t.nr.toNat + 1) → t.dk[i] = decKeyWord t.ek.toList t.nr.toNat i.val)
    (block copied : Vector Word 8) :
    ∃ u, exec (.enc 16) { t with din := block } = .next u ∧
      ((∀ c : Fin 4, copied[c.val] = u.dout[c]) →
        ∃ v, exec (.dec 16) { u with din := copied } = .next v ∧ ∀ c : Fin 4, v.dout[c] = block[c.val]) := by
  have hnr : t.nr.toNat = 10 ∨ t.nr.toNat = 12 ∨ t.nr.toNat = 14 := by
    obtain h | h | h := hn <;> simp [h]
  refine ⟨_, exec_enc_of_loaded (s := { t with din := block }) hk hn, fun hcopied => ?_⟩
  refine ⟨_, exec_dec_of_loaded hk hn, fun c => ?_⟩
  have hinput : inputBlock copied = cipher (inputBlock block) t.ek t.nr.toNat := inputBlock_eq hcopied
  calc (eqInvCipher (inputBlock copied) t.dk t.nr.toNat).words[c]
      = (inputBlock block).words[c] := by rw [hinput, eqInvCipher_cipher hnr hdk]
    _ = (inputBlock block).column c := getElem_words _ c c.isLt
    _ = block[c.val] := column_inputBlock block c

/-- Settles O33: INIT loads a schedule with its decryption keys, under which DEC takes back what ENC writes (R255). -/
theorem roundTripOnTheRegisters : Obligations.RoundTripOnTheRegisters := by
  intro s klen block copied hklen
  have hdk := s.loadKey_inverted hklen
  rw [← s.toNat_loadKey_nr hklen] at hdk
  obtain ⟨u, henc, hdec⟩ := exec_dec_exec_enc (s.loadKey_keyv klen) (s.legalRounds_loadKey hklen) hdk block copied
  exact ⟨_, u, exec_init_of_keySize hklen s, henc, hdec⟩

/-- Settles O23: the schedule and its decryption keys in the files, and the registers that INIT does not write. -/
theorem initLoadsTheKey : Obligations.InitLoadsTheKey := by
  intro s klen hklen nk nr w
  have hw : initSchedule s.din klen = w := initSchedule_eq hklen s.din
  refine ⟨s.loadKey klen, exec_init_of_keySize hklen s, fun i hi => ?_, ?_⟩
  · rw [← hw]
    exact ⟨s.loadKey_ek klen i hi, s.loadKey_dk klen i hi⟩
  · exact ⟨rfl, rfl, rfl, rfl, rfl, rfl, rfl, rfl, rfl, rfl, rfl⟩

/-- Settles O31: both states make the same schedule of the same key words. -/
theorem initDependsOnKeyBytesOnly : Obligations.InitDependsOnKeyBytesOnly := by
  intro s t klen hklen hkey
  have hschedule := initSchedule_congr hklen hkey
  have hnr : (s.loadKey klen).nr = (t.loadKey klen).nr := by rw [State.loadKey_nr, State.loadKey_nr]
  refine ⟨_, _, exec_init_of_keySize hklen s, exec_init_of_keySize hklen t, hnr, fun i hi => ?_⟩
  rw [s.toNat_loadKey_nr hklen] at hi
  rw [s.loadKey_ek klen i hi, s.loadKey_dk klen i hi, t.loadKey_ek klen i hi, t.loadKey_dk klen i hi, hschedule]
  exact ⟨rfl, rfl⟩

/-- Settles O24: the cipher's words in `DOUT`, and the end of the command (R113). -/
theorem encWritesTheCiphertext : Obligations.EncWritesTheCiphertext := by
  intro s hk hn
  rw [exec_enc_of_loaded hk hn, State.writeDout, State.finish]

/-- Settles O25: the equivalent inverse cipher's words in `DOUT`, and the end of the command (R113). -/
theorem decWritesThePlaintext : Obligations.DecWritesThePlaintext := by
  intro s hk hn
  rw [exec_dec_of_loaded hk hn, State.writeDout, State.finish]

/-- Settles O28: both commands write a free value (notes/assumptions/9.md). -/
theorem illegalRoundCountLeavesDoutOpen : Obligations.IllegalRoundCountLeavesDoutOpen := by
  intro s hk hn i hi
  have hfree : exec i s = .next s.writeFreeDout.finish := by
    obtain rfl | rfl := hi
    · simp [exec, execEnc, hk, hn]
    · simp [exec, execDec, hk, hn]
  exact ⟨_, _, hfree⟩

/-- The cipher under a schedule does not depend on the words of the file beyond it (R35). -/
theorem cipher_fileOf {w : List Word} {nr : Nat} (hw : w.length = scheduleLength nr) (hfit : nr ≤ 14)
    (free free' : Nat → Word) (b : Block) : cipher b (fileOf w free) nr = cipher b (fileOf w free') nr := by
  refine cipher_congr (fun r hr => roundKey_congr hr fun i hi => ?_) b
  have hlt : i < w.length := by rw [hw]; exact hi
  rw [fileWord_fileOf hlt (by omega), fileWord_fileOf hlt (by omega)]

/-- Settles O29: the ciphertexts by evaluation, with the words beyond the schedule at 0, and the way back because
decryption undoes encryption (R255). -/
theorem knownAnswers : Obligations.KnownAnswers := by
  unfold Obligations.KnownAnswers
  intro plain key nk answer hcase w free
  have hnk : nk = 4 ∨ nk = 6 ∨ nk = 8 := by
    simp only [List.mem_cons, Prod.mk.injEq, List.not_mem_nil, or_false] at hcase
    omega
  have hkey : (key.take nk).length = nk := by
    obtain rfl | rfl | rfl := hnk <;> rfl
  have hlen : w.length = scheduleLength (nk + 6) := length_keyExpansion hkey (by unfold scheduleLength; omega)
  have henc : (cipher plain (fileOf w free) (nk + 6)).words.toList = answer := by
    rw [cipher_fileOf hlen (by omega) free fun _ => 0]
    simp only [List.mem_cons, Prod.mk.injEq, List.not_mem_nil, or_false] at hcase
    obtain ⟨rfl, rfl⟩ | ⟨rfl, rfl⟩ | ⟨rfl, rfl⟩ := hcase <;> decide +kernel
  refine ⟨henc, fun c hc => ?_⟩
  rw [Block.words_injective (hc.trans henc.symm)]
  exact (decryptionInvertsEncryption (key.take nk) nk hnk hkey free free plain).1

end Sys2Proof.Machine
end

section
/-! SUPPORT. A packed command word's fields are what was packed, and a word without reserved bits is its fields packed
again (R100), and the two statements about encoding. -/

namespace Sys2Proof

section
variable {klen dlen : Nat} (hk : klen ≤ 255) (hd : dlen ≤ 255) (op : BitVec 4)
include hk hd

theorem opField_commandWord : opField (commandWord op klen dlen) = op := by
  have hop := op.isLt
  rw [opField_eq_iff, commandWord_toNat op klen dlen hk hd]
  omega

theorem toNat_klenField_commandWord : (klenField (commandWord op klen dlen)).toNat = klen := by
  have hop := op.isLt
  rw [klenField_toNat, commandWord_toNat op klen dlen hk hd]
  omega

theorem toNat_dlenField_commandWord : (dlenField (commandWord op klen dlen)).toNat = dlen := by
  have hop := op.isLt
  rw [dlenField_toNat, commandWord_toNat op klen dlen hk hd]
  omega

end

/-- Decoding undoes encoding (R105): the reserved fields are 0, and the other fields are those packed. -/
theorem decode_encode {i : Instr} (h : i.wellFormed = true) : decode (encode i) = .command i := by
  obtain ⟨h0, h1⟩ : rsv0Field (encode i) = 0 ∧ rsv1Field (encode i) = 0 := by
    cases i with
    | init klen dlen => exact Laws.ReservedFieldsAreZero.init klen dlen h
    | enc dlen => exact Laws.ReservedFieldsAreZero.enc dlen h
    | dec dlen => exact Laws.ReservedFieldsAreZero.dec dlen h
  cases i with
  | init klen dlen =>
    obtain ⟨hk, hd⟩ : klen ≤ 255 ∧ dlen ≤ 255 := by simpa [Instr.wellFormed] using h
    rw [decode_of_init h0 h1 (opField_commandWord hk hd _), encode, toNat_klenField_commandWord hk hd,
      toNat_dlenField_commandWord hk hd]
  | enc dlen =>
    have hd : dlen ≤ 255 := by simpa [Instr.wellFormed] using h
    have hk : klenField (encode (.enc dlen)) = 0 := BitVec.eq_of_toNat_eq (toNat_klenField_commandWord (by omega) hd _)
    rw [decode_of_enc h0 h1 (opField_commandWord (by omega) hd _) hk, encode, toNat_dlenField_commandWord (by omega) hd]
  | dec dlen =>
    have hd : dlen ≤ 255 := by simpa [Instr.wellFormed] using h
    have hk : klenField (encode (.dec dlen)) = 0 := BitVec.eq_of_toNat_eq (toNat_klenField_commandWord (by omega) hd _)
    rw [decode_of_dec h0 h1 (opField_commandWord (by omega) hd _) hk, encode, toNat_dlenField_commandWord (by omega) hd]

section
variable {v : Word}

/-- What the fields of a word say when it decodes to a command (R105). -/
theorem fields_of_decode_command {i : Instr} (h : decode v = .command i) :
    rsv0Field v = 0 ∧ rsv1Field v = 0 ∧
      ((opField v = 0x1 ∧ i = .init (klenField v).toNat (dlenField v).toNat) ∨
       (opField v = 0x2 ∧ klenField v = 0 ∧ i = .enc (dlenField v).toNat) ∨
       (opField v = 0x3 ∧ klenField v = 0 ∧ i = .dec (dlenField v).toNat)) := by
  have hlegal : ¬ ∃ why, decode v = .illegal why := by simp [h]
  rw [exists_decode_illegal_iff, not_or, not_or, not_not, not_not, not_and_not_right] at hlegal
  obtain ⟨h0, h1, hop⟩ := hlegal
  refine ⟨h0, h1, ?_⟩
  by_cases hi : opField v = 0x1
  · rw [decode_of_init h0 h1 hi, Decoded.command.injEq] at h
    exact .inl ⟨hi, h.symm⟩
  · obtain ⟨he | hd, hk⟩ := hop hi
    · rw [decode_of_enc h0 h1 he hk, Decoded.command.injEq] at h
      exact .inr (.inl ⟨he, hk, h.symm⟩)
    · rw [decode_of_dec h0 h1 hd hk, Decoded.command.injEq] at h
      exact .inr (.inr ⟨hd, hk, h.symm⟩)

/-- A word whose reserved fields are 0 is put together from its other fields (R100, R104). -/
theorem commandWord_fields (h0 : rsv0Field v = 0) (h1 : rsv1Field v = 0) :
    commandWord (opField v) (klenField v).toNat (dlenField v).toNat = v := by
  rw [rsv0Field_eq_zero_iff] at h0
  rw [rsv1Field_eq_zero_iff] at h1
  apply BitVec.eq_of_toNat_eq
  rw [commandWord_toNat _ _ _ (Nat.le_of_lt_succ (klenField v).isLt) (Nat.le_of_lt_succ (dlenField v).isLt),
    opField_toNat, klenField_toNat, dlenField_toNat]
  omega

end

/-- Settles O4: the fields of the encoded word, constructor by constructor. -/
theorem decodeEncodeAgree : Obligations.DecodeEncodeAgree :=
  fun _ => decode_encode

/-- Settles O5: the counts are fields of 8 bits, and the word is its fields put together. -/
theorem encodeDecodeAgree : Obligations.EncodeDecodeAgree := by
  intro v i h
  obtain ⟨h0, h1, hcases⟩ := fields_of_decode_command h
  have hword := commandWord_fields h0 h1
  have hk := Nat.le_of_lt_succ (klenField v).isLt
  have hd := Nat.le_of_lt_succ (dlenField v).isLt
  obtain ⟨hop, rfl⟩ | ⟨hop, hklen, rfl⟩ | ⟨hop, hklen, rfl⟩ := hcases
  · rw [hop] at hword
    exact ⟨by simp [Instr.wellFormed, hk, hd], hword⟩
  · rw [hop, hklen] at hword
    exact ⟨by simp [Instr.wellFormed, hd], hword⟩
  · rw [hop, hklen] at hword
    exact ⟨by simp [Instr.wellFormed, hd], hword⟩

end Sys2Proof
end

section
/-! SUPPORT. The statements about multiplication in GF(2^8) (R131) and about the two S-box tables (R135, R136). -/

namespace Sys2Proof.Machine

/-- Settles O7: the laws of the field, the unit and `xtime` by linearity, and the example. -/
theorem fieldMultiplicationLaws : Obligations.FieldMultiplicationLaws := by
  refine ⟨gmul_comm, gmul_assoc, gmul_xor_right, fun a => ⟨rfl, ?_, (xtime_eq_gmul_two a).symm⟩, by decide⟩
  rw [gmul_comm, gmul_one_left]

/-- The S-box has no fixed point and no opposite fixed point (R135). -/
theorem sbox_ne_self_ne_not : ∀ a : Byte, sbox a ≠ a ∧ sbox a ≠ ~~~a := by
  decide +kernel

/-- Settles O10: the two tables undo each other entry by entry, and the spot values. -/
theorem sboxIsAPermutation : Obligations.SboxIsAPermutation :=
  ⟨fun a => ⟨invSbox_sbox a, sbox_invSbox a, sbox_ne_self_ne_not a⟩, by decide⟩

end Sys2Proof.Machine
end

section
/-! SUPPORT. The register map (R71): the register at an offset and the offset of a register are each other's inverse, and
the two statements about where the registers lie (R70, R71). -/

namespace Sys2Proof.Machine

/-- An offset names the register that lies there (R71). -/
theorem offset_of_regAt {off : Offset} {r : Reg} (h : regAt off = some r) : r.offset = off := by
  have hall : ∀ off : Offset, (regAt off).all (·.offset == off) = true := by decide
  have hoff := hall off
  rw [h, Option.all_some] at hoff
  exact eq_of_beq hoff

theorem regAt_eq_some_iff {off : Offset} {r : Reg} : regAt off = some r ↔ r.offset = off := by
  refine ⟨offset_of_regAt, ?_⟩
  rintro rfl
  exact regAt_offset r

/-- A write that selects a register is the transaction `WR` to it (R114). -/
theorem access_write_eq_wr {off : Offset} {r : Reg} (v : Word) (h : target .w32 off = some r) :
    .access (.write .w32 off v) = wr r v := by
  rw [wr, offset_of_regAt (off := off) (by simpa [target] using h)]

/-- Reading at a register's offset reads the register (R71). -/
theorem map_readReg_regAt_offset (s : State) (r : Reg) : (regAt r.offset).map s.readReg = some (s.readReg r) := by
  rw [regAt_offset, Option.map_some]

/-- Settles O47: each offset of the table is a register's, the others select nothing, and no two registers share one. -/
theorem registerMap : Obligations.RegisterMap := by
  refine ⟨fun s => ?_, fun off => ?_, fun _ _ => regAt_eq_some_iff⟩
  · have hread := map_readReg_regAt_offset s
    exact ⟨hread .cmd, hread .status, hread (.reserved 0), hread (.reserved 1), fun k => hread (.din k),
      fun k => hread (.dout k)⟩
  · simpa [target] using target_eq_none .w32 off

theorem windowOffset_platformAddress (off : Offset) : Config.windowOffset (Config.platformAddress off) = some off := by
  have hlt : off.toNat < 64 := off.isLt
  rw [Config.windowOffset, Config.platformAddress, if_pos (by omega), Nat.add_sub_cancel_left, BitVec.ofNat_toNat,
    BitVec.setWidth_eq]

/-- An address that selects an offset lies in the window (R70). -/
theorem eq_platformAddress_of_windowOffset {addr : Nat} {off : Offset} (h : Config.windowOffset addr = some off) :
    addr = Config.platformAddress off := by
  obtain ⟨⟨hle, hlt⟩, rfl⟩ :
      (Config.base ≤ addr ∧ addr < Config.base + 64) ∧ BitVec.ofNat 6 (addr - Config.base) = off := by
    simpa [Config.windowOffset] using h
  rw [Config.platformAddress, BitVec.toNat_ofNat]
  omega

/-- Settles O48: an address selects its distance from `BASE` if that is below 64, and nothing otherwise. -/
theorem windowPlacement : Obligations.WindowPlacement :=
  ⟨Nat.mul_mod_right 64 _, windowOffset_platformAddress, fun _ _ => eq_platformAddress_of_windowOffset,
    fun _ _ => if_neg (by omega)⟩

end Sys2Proof.Machine
end

section
/-! SUPPORT. What a step does to the registers, said once: it leaves them all as they are, completes a command, accepts one,
stores a word of `DIN` or is a change of the reset input; and the frames of a completion. -/

namespace Sys2Proof.Machine

/-- `t` has the key schedule of `s` (R33, R34, R36, R37). -/
structure State.SameSchedule (s t : State) : Prop where
  ek : t.ek = s.ek
  dk : t.dk = s.dk
  nr : t.nr = s.nr
  keyv : t.keyv = s.keyv

/-- `t` has every register of `s`, and the reset input is as in `s`. -/
structure State.SameRegisters (s t : State) : Prop extends s.SameSchedule t where
  din : t.din = s.din
  dout : t.dout = s.dout
  cmd : t.cmd = s.cmd
  busy : t.busy = s.busy
  done : t.done = s.done
  err : t.err = s.err
  inReset : t.inReset = s.inReset

theorem State.SameRegisters.trans {s t u : State} (h : s.SameRegisters t) (g : t.SameRegisters u) :
    s.SameRegisters u where
  ek := g.ek.trans h.ek
  dk := g.dk.trans h.dk
  nr := g.nr.trans h.nr
  keyv := g.keyv.trans h.keyv
  din := g.din.trans h.din
  dout := g.dout.trans h.dout
  cmd := g.cmd.trans h.cmd
  busy := g.busy.trans h.busy
  done := g.done.trans h.done
  err := g.err.trans h.err
  inReset := g.inReset.trans h.inReset

section
variable (s : State)

/-- The environment and the model's own counter are no registers. -/
theorem State.sameRegisters_environment (inputs : List Input) (responses : List Response) (freeCtr : Nat) :
    s.SameRegisters { s with inputs := inputs, responses := responses, freeCtr := freeCtr } :=
  ⟨⟨rfl, rfl, rfl, rfl⟩, rfl, rfl, rfl, rfl, rfl, rfl, rfl⟩

/-- What a host access does to the registers: nothing, or it is an effective write (R72, R78). -/
theorem performAccess_registers (a : Access) :
    s.SameRegisters (s.performAccess a) ∨
    (s.inReset = false ∧ s.busy = false ∧ ∃ v, .access a = wr .cmd v ∧
      s.performAccess a = (s.accept v).respond (.writeDone false)) ∨
    (s.inReset = false ∧ s.busy = false ∧ ∃ k v, .access a = wr (.din k) v ∧
      s.performAccess a = ({ s with din := s.din.set k v } : State).respond (.writeDone false)) := by
  obtain ⟨-, r, h⟩ | ⟨-, r, h⟩ | ⟨hr, hb, v, off, rfl, ht, h⟩ | ⟨hr, hb, v, off, k, rfl, ht, h⟩ :=
    performAccess_cases s a
  · rw [h]
    exact .inl (s.sameRegisters_environment _ _ _)
  · rw [h]
    exact .inl (s.sameRegisters_environment _ _ _)
  · exact .inr (.inl ⟨hr, hb, v, access_write_eq_wr v ht, h⟩)
  · exact .inr (.inr ⟨hr, hb, k, v, access_write_eq_wr v ht, h⟩)

/-- While a command is pending no access changes a register (R79). -/
theorem performAccess_of_busy {s : State} (hb : s.busy = true) (a : Access) : s.SameRegisters (s.performAccess a) := by
  obtain h | ⟨-, hidle, -⟩ | ⟨-, hidle, -⟩ := performAccess_registers s a
  · exact h
  · simp [hb] at hidle
  · simp [hb] at hidle

/-- An access takes nothing from the input and is answered once. -/
theorem performAccess_environment (a : Access) :
    (s.performAccess a).inputs = s.inputs ∧ (s.performAccess a).responses.length = s.responses.length + 1 := by
  obtain ⟨-, r, h⟩ | ⟨-, r, h⟩ | ⟨-, -, v, off, -, -, h⟩ | ⟨-, -, v, off, k, -, -, h⟩ := performAccess_cases s a
  all_goals simp [h]

end

/-- What a step does to the registers. -/
theorem step_registers {s t : State} (h : step s = .next t) :
    s.SameRegisters t ∨
    (s.busy = true ∧ s.EngineNext ∧ complete { s with inputs := s.inputs.tail } = .next t) ∨
    (s.inReset = false ∧ s.busy = false ∧ ∃ v rest, s.inputs = wr .cmd v :: rest ∧
      t = (({ s with inputs := rest } : State).accept v).respond (.writeDone false)) ∨
    (s.inReset = false ∧ s.busy = false ∧ ∃ k v rest, s.inputs = wr (.din k) v :: rest ∧
      t = ({ s with inputs := rest, din := s.din.set k v } : State).respond (.writeDone false)) ∨
    (∃ b rest, s.inputs = .resetLine b :: rest ∧ t = ({ s with inputs := rest } : State).driveReset b) := by
  obtain ⟨-, -, rfl⟩ | ⟨hn, hb, hc⟩ | ⟨a, rest, hi, rfl⟩ | ⟨b, rest, hi, ht⟩ := step_cases h
  · exact .inl (s.sameRegisters_environment _ _ _)
  · exact .inr (.inl ⟨hb, hn, hc⟩)
  · obtain h | ⟨hr, hb, v, ha, h⟩ | ⟨hr, hb, k, v, ha, h⟩ := performAccess_registers { s with inputs := rest } a
    · exact .inl ((s.sameRegisters_environment rest _ _).trans h)
    · exact .inr (.inr (.inl ⟨hr, hb, v, rest, by rw [hi, ha], h⟩))
    · exact .inr (.inr (.inr (.inl ⟨hr, hb, k, v, rest, by rw [hi, ha], h⟩)))
  · exact .inr (.inr (.inr (.inr ⟨b, rest, hi, ht⟩)))

section
variable {s t : State} (h : complete s = .next t)
include h

/-- The frame of a completion (R113): it ends the command and leaves the rest of the block's inputs as they are. -/
theorem complete_frame : t.busy = false ∧ t.done = true ∧ t.cmd = s.cmd ∧ t.din = s.din ∧ t.inReset = s.inReset := by
  obtain ⟨e, -, rfl⟩ | ⟨klen, w, -, -, -, rfl⟩ | ⟨out, -, -, rfl, -⟩ | ⟨-, -, rfl, -⟩ := complete_cases h
  all_goals simp

/-- A completion changes the schedule only where it is that of an INIT with right lengths (R178, R216, R257, R307). -/
theorem complete_schedule :
    s.SameSchedule t ∨
    ∃ klen, (klen = 16 ∨ klen = 24 ∨ klen = 32) ∧ decode s.cmd = .command (.init klen klen) ∧ t = s.loadKey klen := by
  obtain ⟨e, -, rfl⟩ | ⟨klen, w, hk, hd, rfl, rfl⟩ | ⟨out, -, -, rfl, -⟩ | ⟨-, -, rfl, -⟩ := complete_cases h
  · exact .inl ⟨rfl, rfl, rfl, rfl⟩
  · exact .inr ⟨klen, by simpa using hk, hd, rfl⟩
  · exact .inl ⟨rfl, rfl, rfl, rfl⟩
  · exact .inl ⟨rfl, rfl, rfl, rfl⟩

/-- A completion changes `DOUT` only where it is that of an ENC or DEC of 16 bytes under a loaded schedule (R40). -/
theorem complete_dout :
    t.dout = s.dout ∨ (s.keyv = true ∧ (decode s.cmd = .command (.enc 16) ∨ decode s.cmd = .command (.dec 16))) := by
  obtain ⟨e, -, rfl⟩ | ⟨klen, w, -, -, -, rfl⟩ | ⟨out, hk, -, -, hd⟩ | ⟨hk, -, -, hd⟩ := complete_cases h
  · exact .inl rfl
  · exact .inl rfl
  · exact .inr ⟨hk, hd.imp And.left And.left⟩
  · exact .inr ⟨hk, hd⟩

end

/-- A command pending with the engine to move: the step is its completion (R7). -/
theorem step_of_busy {s : State} (hb : s.busy = true) (hn : s.EngineNext) :
    step s = complete { s with inputs := s.inputs.tail } := by
  rw [step_engine hn]
  exact if_pos hb

/-- No command pending and the engine to move: the step does nothing (R7). -/
theorem step_of_idle {s : State} (hb : s.busy = false) (hn : s.EngineNext) :
    step s = .next { s with inputs := s.inputs.tail } := by
  rw [step_engine hn]
  exact if_neg (by simp [hb])

/-- A step on a change of the reset input drives the block's reset (R340). -/
theorem step_resetLine {s : State} {b : Bool} {rest : List Input} (h : s.inputs = .resetLine b :: rest) :
    step s = .next (({ s with inputs := rest } : State).driveReset b) := by
  simp [step, advance, h]

end Sys2Proof.Machine
end

section
/-! SUPPORT. The invariants (R36-R38, R44, R79, R340) at reset and over a step, and the three statements about them. -/

namespace Sys2Proof.Machine

/-- Registers with their reset values meet the register invariant. -/
theorem State.AtReset.inv {s : State} (h : s.AtReset) : s.Inv where
  unloaded := fun _ => h.nr
  loaded := fun hk => absurd hk (by simp [h.keyv])
  pending := fun hb => absurd hb (by simp [h.busy])
  fresh := fun _ _ => ⟨h.nr, h.keyv, h.dout, h.cmd, h.err⟩
  held := fun _ => h

/-- Assertion and release of reset both put the reset values (R340). -/
theorem State.driveReset_atReset {s : State} {b : Bool} (h : b = true ∨ s.inReset = true) :
    (s.driveReset b).AtReset := by
  have hdrive : s.driveReset b = { s.resetRegisters with inReset := b } := if_pos (by simpa using h)
  rw [hdrive]
  exact ⟨rfl, rfl, rfl, rfl, rfl, rfl, rfl, rfl⟩

/-- A release of reset where it is not asserted is no event (notes/assumptions/15.md). -/
theorem State.driveReset_of_released {s : State} (h : s.inReset = false) : s.driveReset false = s :=
  if_neg (by simp [h])

/-- What driving the reset input does to the registers: nothing, or it puts the reset values (R340). -/
theorem State.driveReset_cases (s : State) (b : Bool) : s.driveReset b = s ∨ (s.driveReset b).AtReset := by
  by_cases h : b = true ∨ s.inReset = true
  · exact .inr (State.driveReset_atReset h)
  · obtain ⟨rfl, hr⟩ : b = false ∧ s.inReset = false := by simpa using h
    exact .inl (State.driveReset_of_released hr)

/-- The register invariant speaks of the registers and the reset input alone. -/
theorem State.SameRegisters.inv {s t : State} (h : s.SameRegisters t) (hs : s.Inv) : t.Inv where
  unloaded := by rw [h.keyv, h.nr]; exact hs.unloaded
  loaded := by rw [h.keyv, h.nr]; exact hs.loaded
  pending := by rw [h.busy, h.done, h.err]; exact hs.pending
  fresh := by rw [h.busy, h.done, h.nr, h.keyv, h.dout, h.cmd, h.err]; exact hs.fresh
  held := by
    rw [h.inReset]
    intro hr
    obtain ⟨hnr, hkeyv, hdin, hdout, hcmd, hbusy, hdone, herr⟩ := hs.held hr
    exact ⟨h.nr.trans hnr, h.keyv.trans hkeyv, h.din.trans hdin, h.dout.trans hdout, h.cmd.trans hcmd,
      h.busy.trans hbusy, h.done.trans hdone, h.err.trans herr⟩

/-- The completion of a pending command keeps the register invariant: afterwards the block is idle and `DONE`, reset is not
asserted, and the schedule is the old one or has just been loaded. -/
theorem State.Inv.of_complete {s t : State} (hs : s.Inv) (hb : s.busy = true) (h : complete s = .next t) : t.Inv := by
  obtain ⟨hbusy, hdone, -, -, hreset⟩ := complete_frame h
  have hrounds : (t.keyv = false → t.nr = 0) ∧ (t.keyv = true → legalRounds t.nr) := by
    obtain hsame | ⟨klen, hklen, -, rfl⟩ := complete_schedule h
    · rw [hsame.keyv, hsame.nr]
      exact ⟨hs.unloaded, hs.loaded⟩
    · exact ⟨fun hk => absurd hk (by simp), fun _ => s.legalRounds_loadKey hklen⟩
  exact ⟨hrounds.1, hrounds.2, fun h1 => absurd h1 (by simp [hbusy]), fun _ h2 => absurd h2 (by simp [hdone]),
    fun h3 => absurd h3 (by simp [hreset, hs.inReset_of_busy hb])⟩

/-- Without a loaded schedule there is nothing to ask of `EK` and `DK`. -/
theorem State.scheduleOk_of_unloaded {s : State} (h : s.keyv = false) : s.ScheduleOk :=
  ⟨fun hk => absurd hk (by simp [h]), fun hk => absurd hk (by simp [h])⟩

theorem State.SameSchedule.scheduleOk {s t : State} (h : s.SameSchedule t) (hs : s.ScheduleOk) : t.ScheduleOk where
  expanded := by rw [h.keyv, h.nr, h.ek]; exact hs.expanded
  inverted := by rw [h.keyv, h.nr, h.ek, h.dk]; exact hs.inverted

/-- The first words of a file, word by word. -/
theorem take_toList_eq {file : Vector Word 60} {key : List Word} (hfit : key.length ≤ 60)
    (h : ∀ i, i < key.length → fileWord file i = key.getD i 0) : file.toList.take key.length = key := by
  refine List.ext_getElem (by simpa using hfit) fun i _ hi => ?_
  have hword := h i hi
  rw [fileWord_of_lt file i (by omega)] at hword
  simpa [List.getD, hi] using hword

/-- What INIT loads is a key schedule: `EK` the expansion of its first words, which are the key's, and `DK` the decryption
keys of `EK` (R38, R178). -/
theorem State.scheduleOk_loadKey (s : State) {klen : Nat} (hklen : klen = 16 ∨ klen = 24 ∨ klen = 32) :
    (s.loadKey klen).ScheduleOk := by
  have hlegal := roundCount_legal hklen
  have hnk : roundCount klen - 6 = keyWordCount klen := Nat.add_sub_cancel ..
  set key := keyWords (keyBytes s.din klen) (keyWordCount klen)
  have hlen : key.length = keyWordCount klen := length_keyWords _ _
  have hfirst : (s.loadKey klen).ek.toList.take (keyWordCount klen) = key := by
    rw [← hlen]
    refine take_toList_eq (by omega) fun i hi => ?_
    have hlt : i < 4 * (roundCount klen + 1) := by omega
    rw [fileWord_of_lt _ i (by omega)]
    exact (s.loadKey_ek klen ⟨i, by omega⟩ hlt).trans (getD_keyExpansion_of_lt hi _ _)
  refine ⟨fun _ i hi => ?_, fun _ i hi => ?_⟩
  · rw [s.toNat_loadKey_nr hklen] at hi ⊢
    rw [hnk, hfirst]
    exact s.loadKey_ek klen i hi
  · rw [s.toNat_loadKey_nr hklen] at hi ⊢
    exact s.loadKey_inverted hklen i hi

/-- Settles O38: step by step of what can happen to the registers, with reset values after a reset. -/
theorem stepKeepsTheInvariant : Obligations.StepKeepsTheInvariant := by
  intro s t hs h
  have hrest (rest : List Input) : ({ s with inputs := rest } : State).Inv :=
    (s.sameRegisters_environment rest _ _).inv hs
  obtain hsame | ⟨hb, -, hc⟩ | ⟨hr, -, v, rest, -, rfl⟩ | ⟨hr, -, k, v, rest, -, rfl⟩ | ⟨b, rest, -, rfl⟩ :=
    step_registers h
  case inl => exact hsame.inv hs
  case inr.inl => exact (hrest s.inputs.tail).of_complete hb hc
  case inr.inr.inl =>
    exact ⟨hs.unloaded, hs.loaded, fun _ => ⟨rfl, rfl⟩, fun hidle => absurd hidle (by simp),
      fun h => absurd h (by simp [hr])⟩
  case inr.inr.inr.inl =>
    exact ⟨hs.unloaded, hs.loaded, hs.pending, hs.fresh, fun h => absurd h (by simp [hr])⟩
  case inr.inr.inr.inr =>
    obtain hnone | hreset := State.driveReset_cases { s with inputs := rest } b
    · rw [hnone]
      exact hrest rest
    · exact hreset.inv

/-- Settles O39: a step keeps the schedule, loads one, or resets `KEYV`. -/
theorem stepKeepsTheSchedule : Obligations.StepKeepsTheSchedule := by
  intro s t hs h
  have hrest (rest : List Input) : ({ s with inputs := rest } : State).ScheduleOk :=
    (s.sameRegisters_environment rest _ _).scheduleOk hs
  obtain hsame | ⟨-, -, hc⟩ | ⟨-, -, v, rest, -, rfl⟩ | ⟨-, -, k, v, rest, -, rfl⟩ | ⟨b, rest, -, rfl⟩ :=
    step_registers h
  case inl => exact hsame.scheduleOk hs
  case inr.inl =>
    obtain hsame | ⟨klen, hklen, -, rfl⟩ := complete_schedule hc
    · exact hsame.scheduleOk (hrest _)
    · exact State.scheduleOk_loadKey _ hklen
  case inr.inr.inl => exact State.SameSchedule.scheduleOk (s := s) ⟨rfl, rfl, rfl, rfl⟩ hs
  case inr.inr.inr.inl => exact State.SameSchedule.scheduleOk (s := s) ⟨rfl, rfl, rfl, rfl⟩ hs
  case inr.inr.inr.inr =>
    obtain hnone | hreset := State.driveReset_cases { s with inputs := rest } b
    · rw [hnone]
      exact hrest rest
    · exact State.scheduleOk_of_unloaded hreset.keyv

/-- Settles O37: the state after reset has the reset values, and no schedule is loaded. -/
theorem resetMeetsTheInvariant : Obligations.ResetMeetsTheInvariant :=
  ⟨State.reset_atReset.inv, State.scheduleOk_of_unloaded rfl⟩

end Sys2Proof.Machine
end

section
/-! SUPPORT. Which steps change a register: the statements about the schedule, `DOUT`, `DIN` and the flags over every step
(R37, R39, R40, R43-R46). -/

namespace Sys2Proof.Machine

/-- Settles O41: of the things that can happen to the registers, a completion of INIT and a reset touch the schedule. -/
theorem onlyInitOrResetChangesTheSchedule : Obligations.OnlyInitOrResetChangesTheSchedule := by
  intro s t h hchange
  have hdiffer : ¬ s.SameSchedule t := fun hsame => by
    simp [hsame.ek, hsame.dk, hsame.nr, hsame.keyv] at hchange
  obtain hsame | ⟨hb, hn, hc⟩ | ⟨-, -, v, rest, -, rfl⟩ | ⟨-, -, k, v, rest, -, rfl⟩ | ⟨b, rest, hi, -⟩ :=
    step_registers h
  case inl => exact absurd hsame.toSameSchedule hdiffer
  case inr.inl =>
    obtain ⟨hek, hdk, hnr, hkeyv⟩ | ⟨klen, hklen, hd, rfl⟩ := complete_schedule hc
    · exact absurd ⟨hek, hdk, hnr, hkeyv⟩ hdiffer
    · exact .inr ⟨hb, hn, rfl, klen, hklen, hd⟩
  case inr.inr.inl => exact absurd ⟨rfl, rfl, rfl, rfl⟩ hdiffer
  case inr.inr.inr.inl => exact absurd ⟨rfl, rfl, rfl, rfl⟩ hdiffer
  case inr.inr.inr.inr => exact .inl ⟨b, rest, hi⟩

/-- Settles O42: of the things that can happen to the registers, a completion of ENC or DEC and a reset touch `DOUT`. -/
theorem onlyBlockCommandsOrResetChangeDout : Obligations.OnlyBlockCommandsOrResetChangeDout := by
  intro s t h hchange
  obtain hsame | ⟨hb, hn, hc⟩ | ⟨-, -, v, rest, -, rfl⟩ | ⟨-, -, k, v, rest, -, rfl⟩ | ⟨b, rest, hi, -⟩ :=
    step_registers h
  case inl => exact absurd hsame.dout hchange
  case inr.inl =>
    obtain hsame | ⟨hk, hd⟩ := complete_dout hc
    · exact absurd hsame hchange
    · exact .inr ⟨hb, hn, hk, hd⟩
  case inr.inr.inl => exact absurd rfl hchange
  case inr.inr.inr.inl => exact absurd rfl hchange
  case inr.inr.inr.inr => exact .inl ⟨b, rest, hi⟩

/-- Settles O43: of the things that can happen to the registers, a `DIN` write and a reset touch `DIN`. -/
theorem onlyHostWritesOrResetChangeDin : Obligations.OnlyHostWritesOrResetChangeDin := by
  intro s t h hchange
  obtain hsame | ⟨-, -, hc⟩ | ⟨-, -, v, rest, -, rfl⟩ | ⟨hr, hb, k, v, rest, hi, rfl⟩ | ⟨b, rest, hi, -⟩ :=
    step_registers h
  case inl => exact absurd hsame.din hchange
  case inr.inl =>
    obtain ⟨-, -, -, hdin, -⟩ := complete_frame hc
    exact absurd hdin hchange
  case inr.inr.inl => exact absurd rfl hchange
  case inr.inr.inr.inl => exact .inr ⟨hb, hr, k, v, rest, hi, rfl⟩
  case inr.inr.inr.inr => exact .inl ⟨b, rest, hi⟩

/-- Settles O44: of the things that can happen to the registers, all but a `DIN` write touch the flags. -/
theorem flagsChangeOnlyAtAcceptanceCompletionReset : Obligations.FlagsChangeOnlyAtAcceptanceCompletionReset := by
  intro s t h hchange
  obtain hsame | ⟨hb, hn, hc⟩ | ⟨-, hb, v, rest, hi, rfl⟩ | ⟨-, -, k, v, rest, -, rfl⟩ | ⟨b, rest, hi, -⟩ :=
    step_registers h
  case inl => simp [hsame.busy, hsame.done, hsame.err, hsame.cmd] at hchange
  case inr.inl =>
    obtain ⟨hbusy, hdone, hcmd, -, -⟩ := complete_frame hc
    exact .inr (.inr ⟨hb, hn, hbusy, hdone, hcmd⟩)
  case inr.inr.inl => exact .inr (.inl ⟨hb, v, rest, hi, rfl, rfl, rfl, rfl⟩)
  case inr.inr.inr.inl => simp at hchange
  case inr.inr.inr.inr => exact .inl ⟨b, rest, hi⟩

end Sys2Proof.Machine
end

section
/-! SUPPORT. Runs of a pending command (R348): any number of accesses leave it pending, and the engine's next turn completes
it; and the five statements about the engine's step. -/

namespace Sys2Proof.Machine

/-- Every command ends (R309). -/
theorem exists_exec (i : Instr) (s : State) : ∃ t, exec i s = .next t := by
  obtain ⟨t, hnext, -⟩ := exec_endsWith i s
  exact ⟨t, hnext⟩

/-- Every step goes on (R309). -/
theorem State.goesOn (s : State) : s.GoesOn := by
  have engine (hn : s.EngineNext) : s.GoesOn := by
    cases hb : s.busy with
    | false => exact ⟨_, step_of_idle hb hn⟩
    | true =>
      obtain ⟨t, hnext, -⟩ := complete_endsWith { s with inputs := s.inputs.tail }
      exact ⟨t, (step_of_busy hb hn).trans hnext⟩
  match hi : s.inputs with
  | [] => exact engine (.inl hi)
  | .engineTurn :: rest => exact engine (.inr ⟨rest, hi⟩)
  | .access a :: rest => exact ⟨_, step_access hi⟩
  | .resetLine b :: rest => exact ⟨_, step_resetLine hi⟩

/-- While a command is pending, the step on an access leaves the registers as they are (R79), and answers it. -/
theorem step_access_of_busy {s : State} {a : Access} {rest : List Input} (hb : s.busy = true)
    (hi : s.inputs = .access a :: rest) :
    ∃ u, step s = .next u ∧ s.SameRegisters u ∧ u.inputs = rest ∧ u.responses.length = s.responses.length + 1 := by
  obtain ⟨hinputs, hanswer⟩ := performAccess_environment { s with inputs := rest } a
  have hsame := performAccess_of_busy (s := { s with inputs := rest }) hb a
  exact ⟨_, step_access hi, (s.sameRegisters_environment rest _ _).trans hsame, hinputs, hanswer⟩

/-- While a command is pending, any number of accesses leave the registers as they are, and each is answered. -/
theorem run_accesses_of_busy (accesses : List Access) {s : State} {rest : List Input} (hb : s.busy = true)
    (hi : s.inputs = accesses.map .access ++ rest) :
    ∃ t, Host.Core.run Sys2Proof.core accesses.length s = .next t ∧ s.SameRegisters t ∧ t.inputs = rest ∧
      t.responses.length = s.responses.length + accesses.length := by
  induction accesses generalizing s with
  | nil => exact ⟨s, rfl, s.sameRegisters_environment _ _ _, hi, rfl⟩
  | cons a accesses ih =>
    obtain ⟨u, hstep, hsame, hinputs, hanswer⟩ := step_access_of_busy hb hi
    obtain ⟨t, hrun, hregs, hrest, hlength⟩ := ih (hsame.busy.trans hb) hinputs
    refine ⟨t, by rw [List.length_cons, run_succ hstep, hrun], hsame.trans hregs, hrest, ?_⟩
    rw [hlength, hanswer, List.length_cons]
    omega

/-- What has to hold of the state in which a command that was pending in `s` has completed (R113, R306). -/
def State.CompletedIn (s t : State) : Prop :=
  t.busy = false ∧ t.done = true ∧ t.cmd = s.cmd ∧ t.err = commandResult (decode s.cmd) s.keyv

/-- With the engine to move, one step completes the pending command. -/
theorem run_one_of_engineNext {s : State} (hb : s.busy = true) (hn : s.EngineNext) :
    ∃ t, Host.Core.run Sys2Proof.core 1 s = .next t ∧ s.CompletedIn t := by
  obtain ⟨t, hnext, herr, -⟩ := complete_endsWith { s with inputs := s.inputs.tail }
  obtain ⟨hbusy, hdone, hcmd, -, -⟩ := complete_frame hnext
  exact ⟨t, run_succ ((step_of_busy hb hn).trans hnext) 0, hbusy, hdone, hcmd, herr⟩

/-- A pending command completes at the engine's first turn, or one step past the input, unless reset is driven before
(R348, notes/assumptions/4.md). -/
theorem exists_run_completedIn (inputs : List Input) {s : State} (hi : s.inputs = inputs) (hb : s.busy = true)
    (hreset : ∀ b, Input.resetLine b ∉ inputs) :
    ∃ n t, n ≤ inputs.length + 1 ∧ Host.Core.run Sys2Proof.core n s = .next t ∧ s.CompletedIn t := by
  induction inputs generalizing s with
  | nil =>
    obtain ⟨t, hrun, ht⟩ := run_one_of_engineNext hb (.inl hi)
    exact ⟨1, t, by omega, hrun, ht⟩
  | cons input rest ih =>
    match input with
    | .engineTurn =>
      obtain ⟨t, hrun, ht⟩ := run_one_of_engineNext hb (.inr ⟨rest, hi⟩)
      exact ⟨1, t, by omega, hrun, ht⟩
    | .resetLine b => exact absurd List.mem_cons_self (hreset b)
    | .access a =>
      obtain ⟨u, hstep, hsame, hinputs, -⟩ := step_access_of_busy hb hi
      obtain ⟨n, t, hn, hrun, hbusy, hdone, hcmd, herr⟩ :=
        ih hinputs (hsame.busy.trans hb) fun b hmem => hreset b (List.mem_cons_of_mem _ hmem)
      rw [hsame.cmd] at hcmd herr
      rw [hsame.keyv] at herr
      exact ⟨n + 1, t, by simpa using hn, by rw [run_succ hstep, hrun], hbusy, hdone, hcmd, herr⟩

/-- Settles O45: acceptance (R78), accesses that find the command pending (R79), and the engine's turn (R7). -/
theorem latencyIsAnyNumberOfAccesses : Obligations.LatencyIsAnyNumberOfAccesses := by
  intro s v accesses rest hb hr hi
  let u := (({ s with inputs := accesses.map .access ++ .engineTurn :: rest } : State).accept v).respond (.writeDone false)
  have haccept : step s = .next u := step_wr_cmd_of_idle hr hb hi
  have hanswer : u.responses.length = s.responses.length + 1 := List.length_cons
  obtain ⟨t, hrun, hsame, hinputs, hlength⟩ := run_accesses_of_busy accesses (s := u) rfl rfl
  exact ⟨t, (run_succ haccept _).trans hrun, hsame.cmd, hsame.din, hsame.busy, hsame.done, hsame.err, hsame.ek, hsame.dk,
    hsame.nr, hsame.keyv, hsame.dout, by omega, hinputs, step_engineTurn_of_busy hsame.busy hinputs⟩

/-- Settles O46: by induction on the input, up to the engine's first turn. -/
theorem pendingCommandCompletes : Obligations.PendingCommandCompletes :=
  fun _ hb hreset => exists_run_completedIn _ rfl hb hreset

/-- Settles O35: the engine's step is the completion, and the completion runs the command. -/
theorem stepRunsThePendingCommand : Obligations.StepRunsThePendingCommand := by
  intro s i hb hn hd
  rw [step_of_busy hb hn]
  exact ⟨complete_of_command (s := { s with inputs := s.inputs.tail }) hd, complete_of_command hd⟩

/-- Settles O36: the completion is not enabled (R7). -/
theorem idleEngineDoesNothing : Obligations.IdleEngineDoesNothing :=
  fun _ => step_of_idle

/-- Settles O40: each kind of input, and each command, leads to a next state. -/
theorem noStepStops : Obligations.NoStepStops :=
  fun s => ⟨s.goesOn, fun i => exists_exec i s⟩

end Sys2Proof.Machine
end

section
/-! SUPPORT. The statements about effective accesses of the register window (R72, R78) and about reset (R340). -/

namespace Sys2Proof.Machine

/-- While reset is asserted an access is lost (R340). -/
theorem performAccess_of_inReset {s : State} (hr : s.inReset = true) (a : Access) :
    s.performAccess a = s.loseAccess a :=
  if_pos hr

/-- Settles O51: a read is answered with the register. -/
theorem readReturnsTheRegister : Obligations.ReadReturnsTheRegister :=
  fun _ _ _ hr hi => step_rd hr hi

/-- Settles O53: acceptance of the word, and the write of one register of `DIN`. -/
theorem idleWritesTakeEffect : Obligations.IdleWritesTakeEffect := by
  intro s v rest hr hb
  refine ⟨fun hi => ?_, fun k hi => ?_⟩
  · rw [step_wr_cmd_of_idle hr hb hi, State.accept, State.respond]
  · rw [step_wr hr hi, State.writeReg, if_neg (by simp [hb]), State.respond]

/-- Settles O56: the reset values where reset is asserted or was, and no effect otherwise. -/
theorem resetInputPutsResetValues : Obligations.ResetInputPutsResetValues := by
  intro s asserted rest hi
  refine ⟨fun h => ?_, ?_⟩
  · have hreset : (({ s with inputs := rest } : State).driveReset asserted).AtReset := State.driveReset_atReset h
    refine ⟨_, step_resetLine hi, hreset, hreset.status_eq_zero, ?_⟩
    simp [State.driveReset, h]
  · rintro rfl hr
    rw [step_resetLine hi, State.driveReset_of_released (s := { s with inputs := rest }) hr]

/-- Settles O57: the access is answered, and the model's own counter goes on. -/
theorem accessesAreLostDuringReset : Obligations.AccessesAreLostDuringReset := by
  intro s a rest hr hi
  refine ⟨({ s with inputs := rest } : State).loseAccess a, Config.freeLostError s.freeCtr, ?_, ?_⟩
  · rw [step_access hi, performAccess_of_inReset (s := { s with inputs := rest }) hr]
  · cases a with
    | read width off => exact ⟨rfl, rfl, rfl, rfl, rfl, rfl, rfl, rfl, rfl, rfl, hr, rfl, rfl⟩
    | write width off v => exact ⟨rfl, rfl, rfl, rfl, rfl, rfl, rfl, rfl, rfl, rfl, hr, rfl, rfl⟩

end Sys2Proof.Machine
end
